-- ==== Sys2Proof/Word.lean ====
section
/-!
DEFINITION. The word types of the block, under the spec's own names (00_scope R5, R8). All values are unsigned.
-/

namespace Sys2Proof

/-- One byte of the data: the version byte, a hash byte (20_memory R30). -/
abbrev Byte := BitVec 8

/-- A 5-bit group, one element of the payload (00_scope, glossary; 30_encoding R48). -/
abbrev Group := BitVec 5

/-- The command word on `cmd` (30_encoding R46). -/
abbrev CommandWord := BitVec 8

/-- The read address `rd_addr`, 0 to 63 (10_state R25). -/
abbrev ReadAddr := BitVec 6

end Sys2Proof
end

