-- ==== Sys2Proof/Syntax.lean ====
section
/-!
DEFINITION. The commands of the block: one constructor per row of `spec/opcode_table.json` (30_encoding R47, R49).
A reserved row keeps the fields `op` and `arg` of its word that the row does not fix, so that no bit is lost;
which values a row covers is `Instr.wellFormed`.
-/

namespace Sys2Proof

/-- A decoded command word: four commands and the sixteen reserved rows, which together partition the 256 words
(30_encoding R49). -/
inductive Instr where
  /-- `00`: does nothing (43_control R105). -/
  | nop
  /-- `20`: begins a transaction (40_bitpacker R64). -/
  | start
  /-- `40 + g`: packs the group `g` (40_bitpacker R65). -/
  | push (g : Group)
  /-- `60`: END, closes the payload and gives the verdict (41_validator R75). -/
  | finish
  /-- NOP's `op` with `arg = 1`. -/
  | reserved0101
  /-- NOP's `op` with `arg` 2 to 3. -/
  | reserved0203 (arg : BitVec 5)
  /-- NOP's `op` with `arg` 4 to 7. -/
  | reserved0407 (arg : BitVec 5)
  /-- NOP's `op` with `arg` 8 to 15. -/
  | reserved080F (arg : BitVec 5)
  /-- NOP's `op` with `arg` 16 to 31. -/
  | reserved101F (arg : BitVec 5)
  /-- START's `op` with `arg = 1`. -/
  | reserved2121
  /-- START's `op` with `arg` 2 to 3. -/
  | reserved2223 (arg : BitVec 5)
  /-- START's `op` with `arg` 4 to 7. -/
  | reserved2427 (arg : BitVec 5)
  /-- START's `op` with `arg` 8 to 15. -/
  | reserved282F (arg : BitVec 5)
  /-- START's `op` with `arg` 16 to 31. -/
  | reserved303F (arg : BitVec 5)
  /-- END's `op` with `arg = 1`. -/
  | reserved6161
  /-- END's `op` with `arg` 2 to 3. -/
  | reserved6263 (arg : BitVec 5)
  /-- END's `op` with `arg` 4 to 7. -/
  | reserved6467 (arg : BitVec 5)
  /-- END's `op` with `arg` 8 to 15. -/
  | reserved686F (arg : BitVec 5)
  /-- END's `op` with `arg` 16 to 31. -/
  | reserved707F (arg : BitVec 5)
  /-- `op` 4 to 7, any `arg`. -/
  | reserved80FF (op : BitVec 3) (arg : BitVec 5)
deriving DecidableEq, Repr

end Sys2Proof
end

