-- ==== Sys2Proof/WellFormed.lean ====
section
/-!
DEFINITION. Which commands a word can spell: the range of `arg` (and of `op`) that each reserved row covers
(30_encoding R49). PUSH's operand has exactly 5 bits, so every group is well formed (30_encoding R48).
-/

namespace Sys2Proof

/-- `lo <= x <= hi`, for a field of the command word. -/
def fieldIn {w : Nat} (lo hi : Nat) (x : BitVec w) : Bool := lo ≤ x.toNat && x.toNat ≤ hi

/-- The command is one that some word spells: a reserved row's fields lie in the row's range (30_encoding R49). -/
def Instr.wellFormed : Instr → Bool
  | .nop | .start | .finish => true
  | .push _ => true
  | .reserved0101 | .reserved2121 | .reserved6161 => true
  | .reserved0203 arg | .reserved2223 arg | .reserved6263 arg => fieldIn 2 3 arg
  | .reserved0407 arg | .reserved2427 arg | .reserved6467 arg => fieldIn 4 7 arg
  | .reserved080F arg | .reserved282F arg | .reserved686F arg => fieldIn 8 15 arg
  | .reserved101F arg | .reserved303F arg | .reserved707F arg => fieldIn 16 31 arg
  | .reserved80FF op _ => fieldIn 4 7 op

end Sys2Proof
end

