-- ==== Sys2Proof/Decode.lean ====
section
/-!
DEFINITION. The decoder of the command word, total on the 256 words (30_encoding R46, R57), and after it the encoder,
written from the opcode map (30_encoding R47, R49). Decoding does not depend on STATE. No word is refused: a word that
spells no command is a reserved row, named after the words it covers.
-/

namespace Sys2Proof

/-- Bits 7 to 5 of the command word (30_encoding R46). -/
def opField (w : CommandWord) : BitVec 3 := w.extractLsb' 5 3

/-- Bits 4 to 0 of the command word (30_encoding R46). -/
def argField (w : CommandWord) : BitVec 5 := w.extractLsb' 0 5

/-- Which of five rows covers a nonzero `arg`: one row per position of its highest set bit (30_encoding R49). -/
def decodeReservedArg (r1 : Instr) (r2 r4 r8 r16 : BitVec 5 → Instr) (arg : BitVec 5) : Instr :=
  if arg.toNat < 2 then r1
  else if arg.toNat < 4 then r2 arg
  else if arg.toNat < 8 then r4 arg
  else if arg.toNat < 16 then r8 arg
  else r16 arg

/-- The reserved row of a word that spells no command (30_encoding R49). -/
def decodeReserved (op : BitVec 3) (arg : BitVec 5) : Instr :=
  if op = 0 then decodeReservedArg .reserved0101 .reserved0203 .reserved0407 .reserved080F .reserved101F arg
  else if op = 1 then decodeReservedArg .reserved2121 .reserved2223 .reserved2427 .reserved282F .reserved303F arg
  else if op = 3 then decodeReservedArg .reserved6161 .reserved6263 .reserved6467 .reserved686F .reserved707F arg
  else .reserved80FF op arg

/-- The whole decode procedure of 30_encoding R57. -/
def decode (w : CommandWord) : Instr :=
  let op := opField w
  let arg := argField w
  if op = 2 then .push arg
  else if arg = 0 ∧ op = 0 then .nop
  else if arg = 0 ∧ op = 1 then .start
  else if arg = 0 ∧ op = 3 then .finish
  else decodeReserved op arg

/-- What the decoder reads from an instruction of `nbits` bits whose value is `w`: every command word has 8 bits, so
nothing else is an instruction (30_encoding R46, R54). -/
def decodeTableWord (nbits w : Nat) : Option Instr :=
  if nbits = 8 ∧ w < 256 then some (decode (BitVec.ofNat 8 w)) else none

/-- The word with the fields `op` and `arg` (30_encoding R46). -/
def commandWord (op : BitVec 3) (arg : BitVec 5) : CommandWord := op ++ arg

/-- The word that spells a well-formed command (30_encoding R47, R49). -/
def encode : Instr → CommandWord
  | .nop => commandWord 0b000 0
  | .start => commandWord 0b001 0
  | .push g => commandWord 0b010 g
  | .finish => commandWord 0b011 0
  | .reserved0101 => commandWord 0b000 1
  | .reserved0203 arg | .reserved0407 arg | .reserved080F arg | .reserved101F arg => commandWord 0b000 arg
  | .reserved2121 => commandWord 0b001 1
  | .reserved2223 arg | .reserved2427 arg | .reserved282F arg | .reserved303F arg => commandWord 0b001 arg
  | .reserved6161 => commandWord 0b011 1
  | .reserved6263 arg | .reserved6467 arg | .reserved686F arg | .reserved707F arg => commandWord 0b011 arg
  | .reserved80FF op arg => commandWord op arg

end Sys2Proof
end

