-- ==== Sys2Proof/Config.lean ====
section
/-!
DEFINITION. What is fixed for the block (00_scope R4, R5: the model takes none of it as an argument) and the one value
the spec leaves free.
-/

namespace Sys2Proof

/-- `fromBits` of the block's instance of `repack` (00_scope R4). -/
abbrev Config.fromBits : Nat := 5

/-- `toBits` of the block's instance of `repack` (00_scope R4). -/
abbrev Config.toBits : Nat := 8

/-- `pad` of the block's instance of `repack`: the decode direction (00_scope R4, 90_conflicts C4). -/
abbrev Config.pad : Bool := false

/-- The number of bytes of the HASH buffer (20_memory R30). -/
abbrev Config.hashBytes : Nat := 64

/-- The hash sizes in bytes, in the order of the size selector (00_scope R4, 30_encoding R52). -/
def Config.hashSizes : List Nat := [20, 24, 28, 32, 40, 48, 56, 64]

/-- FREE VALUE (assumption 4): what byte `i` of HASH holds while no PUSH has written it. The spec calls it
"unspecified" (10_state R26) and "any value" (93_implementation_defined item 12), so it has no body. -/
opaque Config.unwrittenHash : ReadAddr → Byte

end Sys2Proof
end

