-- ==== Sys2Proof/Machine/State.lean ====
section
/-!
DEFINITION. The state of the block (10_state R10 to R18, 20_memory R30), the reasons a step can stop, and the state
after reset (10_state R26). Plain data throughout.
-/

namespace Sys2Proof.Machine

/-- The four values of STATE "and nothing else" (10_state R17). -/
inductive Seq where
  /-- 0: after reset; no transaction begun. -/
  | idle
  /-- 1: a START was accepted; groups may be pushed. -/
  | active
  /-- 2: an END was accepted; ERR holds the outcome. -/
  | done
  /-- 3: the host broke the protocol; only reset leaves this state. -/
  | fault
deriving DecidableEq, Repr

/-- The values ERR can hold (10_state R18, 60_exceptions R116, R124). The codes 7 and 10 to 15 are never written and have
no constructor (assumption 8). -/
inductive Err where
  /-- 0: no error. -/
  | eNone
  /-- 1: "empty payload". -/
  | eEmpty
  /-- 2: "bad padding". -/
  | ePadSize
  /-- 3: "nonzero padding bits". -/
  | ePadNonzero
  /-- 4: "reserved bit set". -/
  | eReserved
  /-- 5: "wrong data length". -/
  | eLength
  /-- 6: "unrecognized type selector". -/
  | eType
  /-- 8: a reserved command word was accepted. -/
  | fCmd
  /-- 9: PUSH or END was accepted outside ACTIVE. -/
  | fSeq
deriving DecidableEq, Repr

/-- The input pins at one rising edge of `clk` (10_state R25). -/
structure ClockEdge where
  /-- `rst`: synchronous reset, active high. -/
  rst : Bool
  /-- `cmd_valid`: `cmd` carries a command in this cycle. -/
  cmdValid : Bool
  /-- `cmd`: the command word. -/
  cmd : CommandWord
deriving DecidableEq, Repr

/-- The state of the block. The last two fields are the model's own (assumptions 1 and 3). -/
structure State where
  /-- ACC: the buffered bits, right-aligned (10_state R11). -/
  acc : BitVec 7
  /-- NBITS: how many bits of ACC are buffered (10_state R12). -/
  nbits : BitVec 3
  /-- LAST: the group of the most recent PUSH (10_state R13). -/
  last : Group
  /-- NE: at least one group was pushed since START (10_state R14). -/
  ne : Bool
  /-- BCNT: bytes produced since START, saturating at 127 (10_state R15). -/
  bcnt : BitVec 7
  /-- VER: the first byte produced since START, the version byte (10_state R16). -/
  ver : Byte
  /-- STATE: the sequencer state (10_state R17). -/
  seq : Seq
  /-- ERR: the error or fault code (10_state R18). -/
  err : Err
  /-- HASH: the bytes PUSH has written, by address (20_memory R30, R31; assumption 4). -/
  hash : List Host.Cell
  /-- The block has been reset since power-up (70_reset R137; assumption 3). -/
  wasReset : Bool
  /-- The input pins at the coming clock edges, the next one first; after them the pins idle (assumption 1). -/
  edges : List ClockEdge
deriving DecidableEq, Repr

/-- Reasons the machine stops with a fault: none. "The block has no halt: every state accepts a next command"
(60_exceptions R132); the block's own faults F_CMD and F_SEQ are states it goes on from (R125). Nothing raises a
constructor of this type, which is safe. -/
inductive Fault where
deriving DecidableEq, Repr

/-- Reasons a step has no meaning. -/
inductive Refusal where
  /-- Raised by an arm of `exec` whose instruction has no meaning yet. Safe: the run stops. -/
  | notModelled (mnemonic : String)
  /-- Raised by `step` for a command accepted before the first reset: "the model has no step for any command"
  (70_reset R137; 92_eei_decisions D15, "the model refuses commands before a reset"). Safe: the run stops. -/
  | commandBeforeReset
deriving DecidableEq, Repr

/-- The state right after the first reset (10_state R26): every register 0, STATE = IDLE, no byte of HASH written, and no
clock edge shown yet. -/
def State.reset : State where
  acc := 0
  nbits := 0
  last := 0
  ne := false
  bcnt := 0
  ver := 0
  seq := .idle
  err := .eNone
  hash := []
  wasReset := true
  edges := []

end Sys2Proof.Machine
end

