-- ==== Sys2Proof/Machine/Operands.lean ====
section
/-!
DEFINITION. The bit fields the rules are written with: `mask(k)` (00_scope R8), and the numbers of STATE and ERR as the
output ports show them (10_state R17, R18).
-/

namespace Sys2Proof.Machine

/-- `mask(k) = (1 << k) - 1`, the number whose low `k` bits are one, in `w` bits (00_scope R8). -/
def lowMask (w k : Nat) : BitVec w := (1#w <<< k) - 1#w

/-- The number of a value of STATE (10_state R17). -/
def Seq.code : Seq → BitVec 2
  | .idle => 0
  | .active => 1
  | .done => 2
  | .fault => 3

/-- The code of a value of ERR (60_exceptions R116, R124). -/
def Err.code : Err → BitVec 4
  | .eNone => 0
  | .eEmpty => 1
  | .ePadSize => 2
  | .ePadNonzero => 3
  | .eReserved => 4
  | .eLength => 5
  | .eType => 6
  | .fCmd => 8
  | .fSeq => 9

end Sys2Proof.Machine
end

