-- ==== Sys2Proof/Machine/Ops.lean ====
section
/-!
DEFINITION. The named operations over the HASH buffer, the pins and the exceptional events. The buffer is a list of
cells in one canonical form (addresses strictly rising, below 64); an address that is not listed has not been written.
-/

namespace Sys2Proof.Machine

/-! ### The HASH buffer (20_memory R30 to R32) -/

/-- The byte written at address `a`, if one was. -/
def hashRead : List Host.Cell → Nat → Option Byte
  | [], _ => none
  | c :: m, a => if c.1 = a then some c.2 else hashRead m a

/-- `MemWrite(a, 1, b)`: `HASH[a] <- b` (00_scope R8). -/
def hashWrite : List Host.Cell → Nat → Byte → List Host.Cell
  | [], a, b => [(a, b)]
  | c :: m, a, b =>
    if a < c.1 then (a, b) :: c :: m
    else if a = c.1 then (a, b) :: m
    else c :: hashWrite m a b

/-- Addresses at or above `lo`, strictly rising, and within the buffer. -/
def hashRising (lo : Nat) : List Host.Cell → Bool
  | [] => true
  | c :: m => lo ≤ c.1 && c.1 < Config.hashBytes && hashRising (c.1 + 1) m

/-- The canonical form of the buffer. -/
def Memory.wf (m : List Host.Cell) : Bool := hashRising 0 m

/-! ### Exceptional events (60_exceptions R115) -/

/-- Entry into an exceptional event: ERR takes the code, STATE the state the event leaves the block in, and nothing is saved
(60_exceptions R120, R125). -/
def takeEvent (e : Err) (dest : Seq) (s : State) : State := { s with err := e, seq := dest }

/-- The outcome `e` of an END: an error of the payload, or success with `eNone`; the block is left in DONE
(60_exceptions R120; 00_scope R8 `raise`). -/
def giveVerdict (e : Err) (s : State) : State := takeEvent e .done s

/-- A fault of the protocol: the block is left in FAULT (60_exceptions R125; 00_scope R8 `fault`). -/
def raiseFault (e : Err) (s : State) : State := takeEvent e .fault s

/-! ### Sequencing (43_control R107, R108) -/

/-- A command that every state but FAULT carries out; FAULT ignores it (43_control R108). -/
def unlessFault (effect : State → State) (s : State) : State :=
  match s.seq with
  | .idle | .active | .done => effect s
  | .fault => s

/-- A command legal in ACTIVE only: F_SEQ in IDLE and DONE, ignored in FAULT (43_control R107, R108). -/
def onlyActive (effect : State → State) (s : State) : State :=
  match s.seq with
  | .active => effect s
  | .idle | .done => raiseFault .fSeq s
  | .fault => s

/-! ### The pins (10_state R25) -/

/-- What the block does at a clock edge. -/
inductive EdgeAction where
  /-- `rst = 1`, whatever `cmd_valid` and `cmd` are (70_reset R135). -/
  | reset
  /-- A command word is accepted (30_encoding R45). -/
  | command (w : CommandWord)
  /-- No command: no state changes (43_control R109). -/
  | idle
deriving DecidableEq, Repr

/-- What the pins ask for at one edge: reset has priority (30_encoding R45, 70_reset R135). -/
def ClockEdge.action (e : ClockEdge) : EdgeAction :=
  if e.rst then .reset else if e.cmdValid then .command e.cmd else .idle

/-- What the next clock edge asks for, and the state with that edge behind it; with no edge left to come the pins idle
(assumption 1). -/
def takeEdge (s : State) : EdgeAction × State :=
  match s.edges with
  | [] => (.idle, s)
  | e :: rest => (e.action, { s with edges := rest })

/-- The pins present the word `w` at the next edge, before the edges already to come. -/
def presentCommand (w : CommandWord) (s : State) : State :=
  { s with edges := { rst := false, cmdValid := true, cmd := w } :: s.edges }

/-- The reset step: every register takes its reset value and HASH is not written (70_reset R135, 10_state R26). -/
def resetRegisters (s : State) : State := { State.reset with hash := s.hash, edges := s.edges }

end Sys2Proof.Machine
end

