-- ==== Sys2Proof/Machine/BitPacker.lean ====
section
/-!
DEFINITION. The BitPacker's commands START and PUSH (40_bitpacker R64 to R68).
-/

namespace Sys2Proof.Machine

/-- START where it is carried out: the packing loop's variables and the bookkeeping start empty; HASH is not written
(40_bitpacker R64). -/
def startTransaction (s : State) : State :=
  { s with acc := 0, nbits := 0, last := 0, ne := false, bcnt := 0, ver := 0, err := .eNone, seq := .active }

/-- BCNT after one more byte: `min(k + 1, 127)` (40_bitpacker R67). -/
def bcntNext (k : BitVec 7) : BitVec 7 := if k = 127 then 127 else k + 1

/-- `emit(byte)`: byte 0 of the data goes to VER, bytes 1 to 64 to HASH, later ones are dropped (40_bitpacker R67). -/
def emit (b : Byte) (s : State) : State :=
  let k := s.bcnt.toNat
  if k = 0 then { s with ver := b, bcnt := bcntNext s.bcnt }
  else if k ≤ Config.hashBytes then { s with hash := hashWrite s.hash (k - 1) b, bcnt := bcntNext s.bcnt }
  else { s with bcnt := bcntNext s.bcnt }

/-- `t = (ACC << 5) | g`, 12 bits (40_bitpacker R65). -/
def packWire (acc : BitVec 7) (g : Group) : BitVec 12 := (acc.setWidth 12 <<< 5) ||| g.setWidth 12

/-- `nb = NBITS + 5`, a wire of 4 bits (10_state R12, 40_bitpacker R65). -/
def bitsWire (nbits : BitVec 3) : BitVec 4 := nbits.setWidth 4 + 5

/-- `PUSH g` in ACTIVE: one turn of the loop of `repack` at (5, 8) (40_bitpacker R65). With `nb >= 8` the top eight
buffered bits become a byte and `nb - 8` stay; otherwise all stay. -/
def pushGroup (g : Group) (s : State) : State :=
  let t := packWire s.acc g
  let nb := bitsWire s.nbits
  let s := { s with last := g, ne := true }
  if 8 ≤ nb.toNat then
    let r := nb.toNat - 8
    emit ((t >>> r).setWidth 8) { s with acc := (t &&& lowMask 12 r).setWidth 7, nbits := BitVec.ofNat 3 r }
  else
    { s with acc := t.setWidth 7, nbits := nb.setWidth 3 }

/-- START (40_bitpacker R64): legal in IDLE, ACTIVE and DONE, ignored in FAULT. -/
def execStart (s : State) : Host.Outcome State Fault Refusal := .next (unlessFault startTransaction s)

/-- `PUSH g` (40_bitpacker R65): legal in ACTIVE only. -/
def execPush (g : Group) (s : State) : Host.Outcome State Fault Refusal := .next (onlyActive (pushGroup g) s)

end Sys2Proof.Machine
end

