-- ==== Sys2Proof/Machine/Control.lean ====
section
/-!
DEFINITION. Control: NOP and the reserved command words (43_control R105, R106, R108).
-/

namespace Sys2Proof.Machine

/-- NOP does nothing, in every state (43_control R105). -/
def execNop (s : State) : Host.Outcome State Fault Refusal := .next s

/-- A reserved word: fault F_CMD in IDLE, ACTIVE and DONE, ignored in FAULT (43_control R106, R108). -/
def reservedWord (s : State) : State := unlessFault (raiseFault .fCmd) s

/-- Word `01`: reserved (30_encoding R49, 43_control R106). -/
def execReserved0101 (s : State) : Host.Outcome State Fault Refusal := .next (reservedWord s)

/-- Words `02` to `03`: reserved (30_encoding R49, 43_control R106). -/
def execReserved0203 (_arg : BitVec 5) (s : State) : Host.Outcome State Fault Refusal := .next (reservedWord s)

/-- Words `04` to `07`: reserved (30_encoding R49, 43_control R106). -/
def execReserved0407 (_arg : BitVec 5) (s : State) : Host.Outcome State Fault Refusal := .next (reservedWord s)

/-- Words `08` to `0F`: reserved (30_encoding R49, 43_control R106). -/
def execReserved080F (_arg : BitVec 5) (s : State) : Host.Outcome State Fault Refusal := .next (reservedWord s)

/-- Words `10` to `1F`: reserved (30_encoding R49, 43_control R106). -/
def execReserved101F (_arg : BitVec 5) (s : State) : Host.Outcome State Fault Refusal := .next (reservedWord s)

/-- Word `21`: reserved (30_encoding R49, 43_control R106). -/
def execReserved2121 (s : State) : Host.Outcome State Fault Refusal := .next (reservedWord s)

/-- Words `22` to `23`: reserved (30_encoding R49, 43_control R106). -/
def execReserved2223 (_arg : BitVec 5) (s : State) : Host.Outcome State Fault Refusal := .next (reservedWord s)

/-- Words `24` to `27`: reserved (30_encoding R49, 43_control R106). -/
def execReserved2427 (_arg : BitVec 5) (s : State) : Host.Outcome State Fault Refusal := .next (reservedWord s)

/-- Words `28` to `2F`: reserved (30_encoding R49, 43_control R106). -/
def execReserved282F (_arg : BitVec 5) (s : State) : Host.Outcome State Fault Refusal := .next (reservedWord s)

/-- Words `30` to `3F`: reserved (30_encoding R49, 43_control R106). -/
def execReserved303F (_arg : BitVec 5) (s : State) : Host.Outcome State Fault Refusal := .next (reservedWord s)

/-- Word `61`: reserved (30_encoding R49, 43_control R106). -/
def execReserved6161 (s : State) : Host.Outcome State Fault Refusal := .next (reservedWord s)

/-- Words `62` to `63`: reserved (30_encoding R49, 43_control R106). -/
def execReserved6263 (_arg : BitVec 5) (s : State) : Host.Outcome State Fault Refusal := .next (reservedWord s)

/-- Words `64` to `67`: reserved (30_encoding R49, 43_control R106). -/
def execReserved6467 (_arg : BitVec 5) (s : State) : Host.Outcome State Fault Refusal := .next (reservedWord s)

/-- Words `68` to `6F`: reserved (30_encoding R49, 43_control R106). -/
def execReserved686F (_arg : BitVec 5) (s : State) : Host.Outcome State Fault Refusal := .next (reservedWord s)

/-- Words `70` to `7F`: reserved (30_encoding R49, 43_control R106). -/
def execReserved707F (_arg : BitVec 5) (s : State) : Host.Outcome State Fault Refusal := .next (reservedWord s)

/-- Words `80` to `FF`: reserved (30_encoding R49, 43_control R106). -/
def execReserved80FF (_op : BitVec 3) (_arg : BitVec 5) (s : State) : Host.Outcome State Fault Refusal := .next (reservedWord s)

end Sys2Proof.Machine
end

