-- ==== Sys2Proof/Machine/VersionByte.lean ====
section
/-!
DEFINITION. The VersionByteCodec: the fields of the version byte, its decode with its errors, the standalone decoder
port, and the reference function `venc` (30_encoding R50 to R53, 42_version_byte R90 to R100).
-/

namespace Sys2Proof.Machine

/-- The two recognised address types (00_scope R9, 30_encoding R51). -/
inductive AddressType where
  | pubKeyHash
  | scriptHash
deriving DecidableEq, Repr

/-- The errors of `vdec`, both of kind MalformedInput (42_version_byte R93, R94). -/
inductive VersionError where
  /-- `checkFirstBitIsZero` fails. -/
  | reserved
  /-- `decodeType` fails. -/
  | unknownType
deriving DecidableEq, Repr

/-- The number of an address type: BCJ's selector value (00_scope R9). -/
def AddressType.number : AddressType → BitVec 1
  | .pubKeyHash => 0
  | .scriptHash => 1

/-- `rsv(v) = v[7]` (42_version_byte R90). -/
def rsv (v : Byte) : BitVec 1 := v.extractLsb' 7 1

/-- `tsel(v) = v[6:3]` (42_version_byte R90; the field is four bits, 90_conflicts C1). -/
def tsel (v : Byte) : BitVec 4 := v.extractLsb' 3 4

/-- `ssel(v) = v[2:0]` (42_version_byte R90). -/
def ssel (v : Byte) : BitVec 3 := v.extractLsb' 0 3

/-- `decodeType(v)`; `none` is the unknown-type error (42_version_byte R91). -/
def decodeType (v : Byte) : Option AddressType :=
  if tsel v = 0 then some .pubKeyHash
  else if tsel v = 1 then some .scriptHash
  else none

/-- `hsize(v)`, BCJ's `decodeHashSize`: total, and within 7 bits (42_version_byte R92). -/
def hsize (v : Byte) : BitVec 7 :=
  let base : BitVec 7 := 20 + 4 * (v &&& 0x03).setWidth 7
  if v.getLsbD 2 then base * 2 else base

/-- `vdec(v)`: the reserved bit is tested before the type (42_version_byte R93). -/
def vdec (v : Byte) : Except VersionError (AddressType × BitVec 7) :=
  if rsv v = 1 then .error .reserved
  else match decodeType v with
    | none => .error .unknownType
    | some t => .ok (t, hsize v)

/-! ### The standalone decoder port (42_version_byte R94): functions of `vb_in` alone -/

/-- `vb_rsv`. -/
def vbRsv (vbIn : Byte) : BitVec 1 := rsv vbIn

/-- `vb_tsel`. -/
def vbTsel (vbIn : Byte) : BitVec 4 := tsel vbIn

/-- `vb_ssel`. -/
def vbSsel (vbIn : Byte) : BitVec 3 := ssel vbIn

/-- `vb_size`: given for every input, also with an error. -/
def vbSize (vbIn : Byte) : BitVec 7 := hsize vbIn

/-- `vb_err`: 1 reserved bit, else 2 unknown type, else 0. -/
def vbErr (vbIn : Byte) : BitVec 2 :=
  if rsv vbIn = 1 then 1 else if 2 ≤ (tsel vbIn).toNat then 2 else 0

/-- `vb_type`: bit 3 of the input when there is no error. -/
def vbType (vbIn : Byte) : BitVec 1 :=
  if vbErr vbIn = 0 then vbIn.extractLsb' 3 1 else 0

/-! ### The reference function `venc` (42_version_byte R98) -/

/-- `venc(t, s)`: `none` is the error of no named kind for a size that is not among the eight (assumption 10). -/
def venc (t : AddressType) (s : Nat) : Option Byte :=
  if s ∈ Config.hashSizes then
    some ((t.number.setWidth 8 <<< 3) ||| BitVec.ofNat 8 (Config.hashSizes.idxOf s))
  else none

end Sys2Proof.Machine
end

