-- ==== Sys2Proof/Machine/Validator.lean ====
section
/-!
DEFINITION. The PayloadValidator: the checks of END, each over the registers the PUSH commands left, their fixed order,
and the command END (41_validator R75 to R83). Each check is true when it FAILS.
-/

namespace Sys2Proof.Machine

/-- `checkNonEmptyPayload` fails: `NE = 0` (41_validator R76). -/
def failsNonEmpty (s : State) : Bool := !s.ne

/-- `checkAllowedPadding` fails: `NBITS >= 5`, NBITS being BCJ's `extraBits` (41_validator R77). -/
def failsAllowedPadding (s : State) : Bool := 5 ≤ s.nbits.toNat

/-- `checkNonZeroPadding` fails: `(LAST & mask(NBITS)) != 0` (41_validator R78; 90_conflicts C3). -/
def failsZeroPadding (s : State) : Bool := s.last &&& lowMask 5 s.nbits.toNat ≠ 0

/-- `checkFirstBitIsZero` fails: `VER[7] = 1` (41_validator R80). -/
def failsFirstBit (s : State) : Bool := rsv s.ver = 1

/-- `checkDataLength` fails: `BCNT - 1 != hsize(VER)`, in the integers (41_validator R81; assumption 7). -/
def failsDataLength (s : State) : Bool := (s.bcnt.toNat : Int) - 1 ≠ (hsize s.ver).toNat

/-- The type test of `decodeType` fails: `tsel(VER) >= 2` (41_validator R82). -/
def failsType (s : State) : Bool := 2 ≤ (tsel s.ver).toNat

/-- The outcome of END: the first check that fails, in the fixed order, decides (41_validator R75, R83). -/
def verdict (s : State) : Err :=
  if failsNonEmpty s then .eEmpty
  else if failsAllowedPadding s then .ePadSize
  else if failsZeroPadding s then .ePadNonzero
  else if failsFirstBit s then .eReserved
  else if failsDataLength s then .eLength
  else if failsType s then .eType
  else .eNone

/-- END in ACTIVE: ERR and STATE are written and nothing else (41_validator R75). -/
def closePayload (s : State) : State := giveVerdict (verdict s) s

/-- END (41_validator R75): legal in ACTIVE only. -/
def execFinish (s : State) : Host.Outcome State Fault Refusal := .next (onlyActive closePayload s)

end Sys2Proof.Machine
end

