-- ==== Sys2Proof/Machine/Dispatch.lean ====
section
/-!
DEFINITION. The dispatch of a decoded command to its meaning, one arm per constructor.
-/

namespace Sys2Proof.Machine

def exec (i : Instr) (s : State) : Host.Outcome State Fault Refusal :=
  match i with
  | .nop => Sys2Proof.Machine.execNop s
  | .start => Sys2Proof.Machine.execStart s
  | .push g => Sys2Proof.Machine.execPush g s
  | .finish => Sys2Proof.Machine.execFinish s
  | .reserved0101 => Sys2Proof.Machine.execReserved0101 s
  | .reserved0203 arg => Sys2Proof.Machine.execReserved0203 arg s
  | .reserved0407 arg => Sys2Proof.Machine.execReserved0407 arg s
  | .reserved080F arg => Sys2Proof.Machine.execReserved080F arg s
  | .reserved101F arg => Sys2Proof.Machine.execReserved101F arg s
  | .reserved2121 => Sys2Proof.Machine.execReserved2121 s
  | .reserved2223 arg => Sys2Proof.Machine.execReserved2223 arg s
  | .reserved2427 arg => Sys2Proof.Machine.execReserved2427 arg s
  | .reserved282F arg => Sys2Proof.Machine.execReserved282F arg s
  | .reserved303F arg => Sys2Proof.Machine.execReserved303F arg s
  | .reserved6161 => Sys2Proof.Machine.execReserved6161 s
  | .reserved6263 arg => Sys2Proof.Machine.execReserved6263 arg s
  | .reserved6467 arg => Sys2Proof.Machine.execReserved6467 arg s
  | .reserved686F arg => Sys2Proof.Machine.execReserved686F arg s
  | .reserved707F arg => Sys2Proof.Machine.execReserved707F arg s
  | .reserved80FF op arg => Sys2Proof.Machine.execReserved80FF op arg s

end Sys2Proof.Machine
end

