-- ==== Sys2Proof/Machine/Step.lean ====
section
/-!
DEFINITION. One step: the block meets its next clock edge (00_scope R7, 30_encoding R45).
-/

namespace Sys2Proof.Machine

/-- One clock edge. A reset takes the registers to their reset values (70_reset R135); an accepted word is decoded and
carried out, but before the first reset no command has a meaning (70_reset R137); an idle edge changes nothing
(43_control R109; it is no step of the spec, assumption 2). -/
def step (s : State) : Host.Outcome State Fault Refusal :=
  match takeEdge s with
  | (.reset, s') => .next (resetRegisters s')
  | (.command w, s') => if s'.wasReset then exec (decode w) s' else .refused .commandBeforeReset
  | (.idle, s') => .next s'

/-- `s` with the command word `w` presented at the next clock edge, in a block that has been reset, so that the very next
step accepts it (assumptions 1 and 3). Every command word has 8 bits (30_encoding R54). -/
def State.withFetchWord (s : State) (_nbits w : Nat) : State :=
  presentCommand (BitVec.ofNat 8 w) { s with wasReset := true }

end Sys2Proof.Machine
end

