-- ==== Sys2Proof/Machine/Reference.lean ====
section
/-!
DEFINITION. The reference functions, which the laws are stated with and which are no ports of the block (00_scope R2):
`repack` for any positive widths (40_bitpacker R60) and `outcome`, the verdict on a payload as a function of its groups
(41_validator R86).
-/

namespace Sys2Proof.Machine

/-- Why `repack` gives no sequence. -/
inductive RepackError where
  /-- MalformedInput: nonzero leftover bits with `pad = false` (40_bitpacker R60). -/
  | malformedInput
  /-- A width of 0, for which the spec gives the function no meaning (91_not_in_source N9; assumption 9). -/
  | widthOutsideSpec
deriving DecidableEq, Repr

/-- The variables of the loop of `repack`: the unbounded accumulator, the count of buffered bits, and the output. -/
structure Packing (toBits : Nat) where
  acc : Nat
  bits : Nat
  out : List (BitVec toBits)
deriving DecidableEq, Repr

/-- The loop's variables before the first group. -/
def Packing.start (toBits : Nat) : Packing toBits := { acc := 0, bits := 0, out := [] }

/-- `mask(k)` of an unbounded number (00_scope R8). -/
def natMask (k : Nat) : Nat := (1 <<< k) - 1

/-- The inner loop "while buffered bits >= toBits, extract the top toBits", at most `fuel` times; each turn takes at
least one bit when `toBits` is positive, so `fuel = bits` is enough. -/
def drain {toBits : Nat} : Nat → Packing toBits → Packing toBits
  | 0, p => p
  | fuel + 1, p =>
    if toBits ≤ p.bits then
      drain fuel { p with
        bits := p.bits - toBits
        out := p.out ++ [BitVec.ofNat toBits (p.acc >>> (p.bits - toBits))] }
    else p

/-- One turn of the outer loop: shift the group in, then drain (40_bitpacker R60). -/
def packTurn {fromBits toBits : Nat} (p : Packing toBits) (g : BitVec fromBits) : Packing toBits :=
  let bits := p.bits + fromBits
  drain bits { p with acc := (p.acc <<< fromBits) ||| g.toNat, bits := bits }

/-- The loop over the whole input. -/
def packLoop (fromBits toBits : Nat) (input : List (BitVec fromBits)) : Packing toBits :=
  input.foldl packTurn (Packing.start toBits)

/-- The bits still buffered when the input is consumed. -/
def Packing.leftover {toBits : Nat} (p : Packing toBits) : Nat := p.acc &&& natMask p.bits

/-- `repack(input, fromBits, toBits, pad)` (40_bitpacker R60). The precondition "each < 2^fromBits" is the element type. -/
def repack (fromBits toBits : Nat) (pad : Bool) (input : List (BitVec fromBits)) :
    Except RepackError (List (BitVec toBits)) :=
  if fromBits = 0 ∨ toBits = 0 then .error .widthOutsideSpec
  else
    let p := packLoop fromBits toBits input
    if pad then
      .ok (if 0 < p.bits then p.out ++ [BitVec.ofNat toBits (p.leftover <<< (toBits - p.bits))] else p.out)
    else if p.leftover ≠ 0 then .error .malformedInput
    else .ok p.out

/-- The block's instance, `repack` at (5, 8, false) (00_scope R4). -/
def repackPayload (g : List Group) : Except RepackError (List Byte) :=
  repack Config.fromBits Config.toBits Config.pad g

/-- `outcome(g)`: the verdict on the payload `g` (41_validator R86), as the code END leaves in ERR. Its last two arms
cannot be reached from the checks before them (41_validator R79, R85) and give what the check at hand would. -/
def outcome (g : List Group) : Err :=
  let x := g.length * 5 % 8
  match g.getLast? with
  | none => .eEmpty
  | some lastGroup =>
    if 5 ≤ x then .ePadSize
    else if lastGroup.toNat &&& natMask x ≠ 0 then .ePadNonzero
    else match repackPayload g with
      | .ok (v :: hash) =>
        if rsv v = 1 then .eReserved
        else if hash.length ≠ (hsize v).toNat then .eLength
        else if 2 ≤ (tsel v).toNat then .eType
        else .eNone
      | .ok [] => .eLength
      | .error _ => .ePadNonzero

end Sys2Proof.Machine
end

