-- ==== Sys2Proof/Machine/Assembler.lean ====
section
/-!
DEFINITION. The assembler syntax and the pseudo-instructions (30_encoding R55, R56): notation for command streams, which
the block itself does not see. What the spec leaves open about the text is assumption 11.
-/

namespace Sys2Proof.Machine

/-! ### Pseudo-instructions (30_encoding R56) -/

/-- `PAYLOAD g0, ..., gk`: START, one PUSH per group, END. This is a whole transaction (00_scope, glossary). -/
def payloadCommands (g : List Group) : List Instr := .start :: g.map .push ++ [.finish]

/-- `PUSHBYTES b0, ..., bk`: a PUSH of each element of `repack([b0, ..., bk], 8, 5, true)`. -/
def pushBytes (bytes : List Byte) : Except RepackError (List Instr) :=
  match repack 8 5 true bytes with
  | .ok g => .ok (g.map .push)
  | .error e => .error e

/-- Why the assembler rejects a line. -/
inductive AsmError where
  /-- The text is no command, pseudo-instruction or operand of the syntax. -/
  | badSyntax
  /-- An operand outside its range: "an error of the assembler, not a command". -/
  | operandRange
  /-- ADDRESS with a number of bytes that is not one of the eight sizes. -/
  | hashSize
  /-- `repack` gave no sequence; it never errs at (8, 5, true) (40_bitpacker R61 c). -/
  | repack (e : RepackError)
deriving DecidableEq, Repr

/-- `ADDRESS t, b1, ..., bh`: START, `PUSHBYTES venc(t, h), b1, ..., bh`, END. -/
def addressCommands (t : AddressType) (hash : List Byte) : Except AsmError (List Instr) :=
  match venc t hash.length with
  | none => .error .hashSize
  | some v =>
    match pushBytes (v :: hash) with
    | .ok pushes => .ok (.start :: pushes ++ [.finish])
    | .error e => .error (.repack e)

/-! ### The text of one line (30_encoding R55) -/

/-- The value of a digit in base 16. -/
def digitValue (c : Char) : Option Nat :=
  if 48 ≤ c.toNat ∧ c.toNat ≤ 57 then some (c.toNat - 48)
  else if 65 ≤ c.toNat ∧ c.toNat ≤ 70 then some (c.toNat - 55)
  else if 97 ≤ c.toNat ∧ c.toNat ≤ 102 then some (c.toNat - 87)
  else none

/-- The number the digits write in `base`, on top of `n`. -/
def digitsFrom (base : Nat) : Nat → List Char → Option Nat
  | n, [] => some n
  | n, c :: cs =>
    match digitValue c with
    | none => none
    | some d => if d < base then digitsFrom base (n * base + d) cs else none

/-- "A decimal or `0x` hexadecimal operand". -/
def parseNumber : List Char → Option Nat
  | [] => none
  | ['0', 'x'] => none
  | '0' :: 'x' :: ds => digitsFrom 16 0 ds
  | ds => digitsFrom 10 0 ds

/-- The line without its comment: everything before the first `;`. -/
def dropComment (line : List Char) : List Char := line.takeWhile (· ≠ ';')

/-- The text without the spaces at its two ends. -/
def trimSpaces (cs : List Char) : List Char :=
  ((cs.dropWhile (· = ' ')).reverse.dropWhile (· = ' ')).reverse

/-- The comma-separated fields of a text, at least one. -/
def splitCommas : List Char → List (List Char)
  | [] => [[]]
  | c :: cs =>
    match splitCommas cs with
    | [] => [[c]]
    | f :: fs => if c = ',' then [] :: f :: fs else (c :: f) :: fs

/-- The operand fields after the mnemonic, without surrounding spaces; none when there is no text. -/
def operandFields (cs : List Char) : List (List Char) :=
  if trimSpaces cs = [] then [] else (splitCommas cs).map trimSpaces

/-- Numbers below `2^w`, one per field. -/
def parseOperands (w : Nat) : List (List Char) → Except AsmError (List (BitVec w))
  | [] => .ok []
  | f :: fs =>
    match parseNumber f with
    | none => .error .badSyntax
    | some n =>
      if n < 2 ^ w then
        match parseOperands w fs with
        | .ok rest => .ok (BitVec.ofNat w n :: rest)
        | .error e => .error e
      else .error .operandRange

/-- "`t` written `PKH` (0) or `SH` (1)". -/
def parseType (cs : List Char) : Option AddressType :=
  if cs = ['P', 'K', 'H'] then some .pubKeyHash
  else if cs = ['S', 'H'] then some .scriptHash
  else none

/-- The words of a list of commands. -/
def wordsOf : Except AsmError (List Instr) → Except AsmError (List CommandWord)
  | .ok is => .ok (is.map encode)
  | .error e => .error e

/-- The words of one line, given its mnemonic and its operand fields (30_encoding R55, R56). -/
def assembleFields (mnemonic : List Char) (fields : List (List Char)) : Except AsmError (List CommandWord) :=
  if mnemonic = "NOP".toList then
    if fields = [] then .ok [encode .nop] else .error .badSyntax
  else if mnemonic = "START".toList then
    if fields = [] then .ok [encode .start] else .error .badSyntax
  else if mnemonic = "END".toList then
    if fields = [] then .ok [encode .finish] else .error .badSyntax
  else if mnemonic = "PUSH".toList then
    match parseOperands 5 fields with
    | .ok [g] => .ok [encode (.push g)]
    | .ok _ => .error .badSyntax
    | .error e => .error e
  else if mnemonic = ".word".toList then
    match parseOperands 8 fields with
    | .ok [w] => .ok [w]
    | .ok _ => .error .badSyntax
    | .error e => .error e
  else if mnemonic = "PAYLOAD".toList then
    match parseOperands 5 fields with
    | .ok g => wordsOf (.ok (payloadCommands g))
    | .error e => .error e
  else if mnemonic = "PUSHBYTES".toList then
    match parseOperands 8 fields with
    | .ok [] => .error .badSyntax
    | .ok bytes =>
      match pushBytes bytes with
      | .ok is => wordsOf (.ok is)
      | .error e => .error (.repack e)
    | .error e => .error e
  else if mnemonic = "ADDRESS".toList then
    match fields with
    | [] => .error .badSyntax
    | t :: bytes =>
      match parseType t, parseOperands 8 bytes with
      | none, _ => .error .badSyntax
      | some _, .error e => .error e
      | some t, .ok hash => wordsOf (addressCommands t hash)
  else .error .badSyntax

/-- The words one line of the assembler stands for; a line with no text stands for none (30_encoding R55). -/
def assembleLine (line : List Char) : Except AsmError (List CommandWord) :=
  let text := trimSpaces (dropComment line)
  if text = [] then .ok []
  else assembleFields (text.takeWhile (· ≠ ' ')) (operandFields (text.dropWhile (· ≠ ' ')))

/-- The words of a command stream, one command per line (30_encoding R55). -/
def assemble : List (List Char) → Except AsmError (List CommandWord)
  | [] => .ok []
  | line :: rest =>
    match assembleLine line, assemble rest with
    | .ok ws, .ok more => .ok (ws ++ more)
    | .error e, _ => .error e
    | .ok _, .error e => .error e

end Sys2Proof.Machine
end

