-- ==== Sys2Proof/Machine/Flags.lean ====
section
/-!
DEFINITION. The three flag outputs, computed from STATE and ERR (10_state R20). The one stored flag, NE, is a register.
-/

namespace Sys2Proof.Machine

/-- `done`: STATE = DONE (10_state R20). -/
def State.done (s : State) : Bool := s.seq = .done

/-- `ok`: STATE = DONE and ERR = 0 (10_state R20). -/
def State.ok (s : State) : Bool := s.seq = .done ∧ s.err = .eNone

/-- `fault`: STATE = FAULT (10_state R20). -/
def State.fault (s : State) : Bool := s.seq = .fault

end Sys2Proof.Machine
end

