-- ==== Sys2Proof/Machine/Ports.lean ====
section
/-!
DEFINITION. The output ports, each a function of the current state and, for `rd_data`, of the free input `rd_addr`
(10_state R24, 20_memory R33). The outputs `vb_*` read no state and stand with the VersionByteCodec.
-/

namespace Sys2Proof.Machine

/-- One wire carrying a truth value. -/
def wire (b : Bool) : BitVec 1 := BitVec.ofBool b

/-- The output ports that depend on the state alone (10_state R24). -/
structure Outputs where
  /-- `state`: STATE. -/
  state : BitVec 2
  /-- `err`: ERR. -/
  err : BitVec 4
  /-- `done`: STATE = DONE. -/
  done : BitVec 1
  /-- `ok`: STATE = DONE and ERR = 0. -/
  ok : BitVec 1
  /-- `fault`: STATE = FAULT. -/
  fault : BitVec 1
  /-- `ver`: VER when `ok`, else 0. -/
  ver : Byte
  /-- `atype`: bit 3 of VER when `ok`, else 0. -/
  atype : BitVec 1
  /-- `hsize`: the hash size when `ok`, else 0. -/
  hsize : BitVec 7
deriving DecidableEq, Repr

/-- The value on each output port (10_state R24): the results are gated by `ok`. -/
def State.outputs (s : State) : Outputs where
  state := s.seq.code
  err := s.err.code
  done := wire s.done
  ok := wire s.ok
  fault := wire s.fault
  ver := if s.ok then s.ver else 0
  atype := if s.ok then s.ver.extractLsb' 3 1 else 0
  hsize := if s.ok then Sys2Proof.Machine.hsize s.ver else 0

/-- `HASH[a]`: the byte written there, or the free value while none was (assumption 4). -/
def hashByte (s : State) (a : ReadAddr) : Byte := (hashRead s.hash a.toNat).getD (Config.unwrittenHash a)

/-- `MemRead(rd_addr, 1)`, the read port `rd_data`, behind its gate (20_memory R33). -/
def rdData (s : State) (rdAddr : ReadAddr) : Byte :=
  if s.ok ∧ rdAddr.toNat < (hsize s.ver).toNat then hashByte s rdAddr else 0

end Sys2Proof.Machine
end

