-- ==== Sys2Proof/Safety.lean ====
section
/-!
DEFINITION. What counts as a safe run of the block: the commands the host may send in each state (43_control R107,
70_reset R140 a), and the invariant of the registers that every step keeps (10_state R17, R18, R21; 20_memory R33).
-/

namespace Sys2Proof.Machine

/-- The block is not in FAULT, which the host enters by breaking the protocol (60_exceptions R125). -/
def State.safe (s : State) : Bool := s.seq ≠ .fault

/-- The columns of the sequencer's table (43_control R107). -/
inductive CommandKind where
  | nop
  | start
  | push
  | finish
  | reserved
deriving DecidableEq, Repr

/-- The column of a command. -/
def commandKind : Instr → CommandKind
  | .nop => .nop
  | .start => .start
  | .push _ => .push
  | .finish => .finish
  | .reserved0101 | .reserved2121 | .reserved6161 => .reserved
  | .reserved0203 _ | .reserved0407 _ | .reserved080F _ | .reserved101F _ => .reserved
  | .reserved2223 _ | .reserved2427 _ | .reserved282F _ | .reserved303F _ => .reserved
  | .reserved6263 _ | .reserved6467 _ | .reserved686F _ | .reserved707F _ => .reserved
  | .reserved80FF _ _ => .reserved

/-- The sequencer's table: STATE before and the command give STATE after (43_control R107). -/
def sequencerTable : Seq → CommandKind → Seq
  | .idle, .nop => .idle
  | .idle, .start => .active
  | .idle, .push => .fault
  | .idle, .finish => .fault
  | .idle, .reserved => .fault
  | .active, .nop => .active
  | .active, .start => .active
  | .active, .push => .active
  | .active, .finish => .done
  | .active, .reserved => .fault
  | .done, .nop => .done
  | .done, .start => .active
  | .done, .push => .fault
  | .done, .finish => .fault
  | .done, .reserved => .fault
  | .fault, _ => .fault

/-- The host may send the command: it does not take the block into FAULT (70_reset R140 a). -/
def legalIn (q : Seq) (k : CommandKind) : Bool := sequencerTable q k ≠ .fault

/-- Which of END's six checks fail, in the fixed order (41_validator R83). -/
def failingChecks (s : State) : List Bool :=
  [failsNonEmpty s, failsAllowedPadding s, failsZeroPadding s, failsFirstBit s, failsDataLength s, failsType s]

/-! ### Runs -/

/-- Carry out commands one after another. -/
def runCommands : List Instr → State → Host.Outcome State Fault Refusal
  | [], s => .next s
  | i :: is, s =>
    match exec i s with
    | .next t => runCommands is t
    | .fault r => .fault r
    | .refused r => .refused r

/-- Meet `n` clock edges one after another. -/
def runEdges : Nat → State → Host.Outcome State Fault Refusal
  | 0, s => .next s
  | n + 1, s =>
    match step s with
    | .next t => runEdges n t
    | .fault r => .fault r
    | .refused r => .refused r

/-- The commands other than NOP that clock edges without a reset carry, in order: what is left of a stream when NOPs and
cycles without a command are taken out (41_validator R86). -/
def commandsOf : List ClockEdge → List Instr
  | [] => []
  | e :: es =>
    if e.cmdValid then
      if decode e.cmd = .nop then commandsOf es else decode e.cmd :: commandsOf es
    else commandsOf es

/-! ### Invariants -/

/-- The datapath registers hang together as some number of pushed groups leaves them (10_state R21). -/
structure Datapath (s : State) : Prop where
  /-- R21 (b): only the low NBITS bits of ACC are used. -/
  packed : s.acc.toNat < 2 ^ s.nbits.toNat
  /-- R21 (a), (d): the bits produced and buffered are a whole number of groups, while BCNT has not saturated. -/
  counted : s.bcnt.toNat < 127 → 5 ∣ 8 * s.bcnt.toNat + s.nbits.toNat
  /-- R21 (e): NE is 0 exactly when nothing was pushed. -/
  nonEmpty : s.ne = false ↔ s.bcnt = 0 ∧ s.nbits = 0
  /-- R21 (f): LAST is 0 until the first PUSH. -/
  lastEmpty : s.ne = false → s.last = 0
  /-- R21 (h): VER is 0 until a byte is produced. -/
  verEmpty : s.bcnt = 0 → s.ver = 0
  /-- R21 (g): up to five buffered bits lie inside the last group. -/
  leftover : s.nbits.toNat ≤ 5 → s.acc = (s.last &&& lowMask 5 s.nbits.toNat).setWidth 7
  /-- R21 (i), 20_memory R33: the hash bytes counted by BCNT have been written. -/
  written : ∀ i, i < 64 → i + 1 < s.bcnt.toNat → (hashRead s.hash i).isSome

/-- STATE and ERR agree, and both agree with the datapath (10_state R17, R18). -/
structure Sequencer (s : State) : Prop where
  /-- IDLE is entered by reset only, so the registers still hold their reset values. -/
  idle : s.seq = .idle → s.ne = false ∧ s.err = .eNone
  /-- R18: ERR is 0 in ACTIVE. -/
  active : s.seq = .active → s.err = .eNone
  /-- In DONE ERR holds the verdict on the registers, which END does not change. -/
  done : s.seq = .done → s.err = verdict s
  /-- In FAULT ERR holds one of the two fault codes. -/
  fault : s.seq = .fault → s.err = .fCmd ∨ s.err = .fSeq

/-- The invariant of the machine: the buffer is in canonical form, and once the block has been reset its registers hang
together. -/
structure State.Inv (s : State) : Prop where
  hashWf : Memory.wf s.hash = true
  datapath : s.wasReset = true → Datapath s
  sequencer : s.wasReset = true → Sequencer s

end Sys2Proof.Machine
end

