-- ==== Sys2Proof/Certificates/Slice0/Obligations.lean ====
section
/-!
DEFINITION. What the provers are asked to show of the block: statements about the machine, each from the numbered rules of
`spec/`. In the arithmetic of a statement the registers are read as unsigned numbers (00_scope R8).
-/

open Sys2Proof Sys2Proof.Machine

/-! ### Steps: reset, idle edges, accepted commands -/

/-- 70_reset R135: at an edge with `rst = 1`, whatever `cmd_valid` and `cmd` are, every register takes its reset value, in
any state; HASH is not written; no command is accepted. -/
def Obligations.ResetEdgeRestoresRegisters : Prop :=
  ∀ (s : State) (e : ClockEdge) (rest : List ClockEdge), s.edges = e :: rest → e.rst = true →
    ∃ t, step s = .next t ∧ t.seq = .idle ∧ t.err = .eNone ∧ t.acc = 0 ∧ t.nbits = 0 ∧ t.last = 0 ∧ t.ne = false ∧
      t.bcnt = 0 ∧ t.ver = 0 ∧ t.hash = s.hash

/-- 10_state R26: the outputs after a reset follow, all 0, for every `rd_addr`. -/
def Obligations.OutputsAfterResetAreZero : Prop :=
  ∀ (s : State) (e : ClockEdge) (rest : List ClockEdge), s.edges = e :: rest → e.rst = true →
    ∃ t, step s = .next t ∧
      t.outputs = { state := 0, err := 0, done := 0, ok := 0, fault := 0, ver := 0, atype := 0, hsize := 0 } ∧
      ∀ a, rdData t a = 0

/-- 43_control R109: an edge with `rst = 0` and `cmd_valid = 0` changes no state, whatever `cmd` carries, and neither does
any number of such edges. (That the model shows such an edge as a step is assumption 2.) -/
def Obligations.IdleEdgesChangeNothing : Prop :=
  ∀ (idle : List ClockEdge) (s : State) (rest : List ClockEdge), s.edges = idle ++ rest →
    (∀ e ∈ idle, e.rst = false ∧ e.cmdValid = false) →
    runEdges idle.length s = .next { s with edges := rest }

/-- 30_encoding R45: a step at an edge that accepts a word runs the instruction the decoder reads from it, on the state
with that edge behind it. `withFetchWord` presents such an edge; with no edge to come the step changes nothing
(assumptions 1, 2). -/
def Obligations.StepRunsDecodedCommand : Prop :=
  (∀ (s : State) (e : ClockEdge) (rest : List ClockEdge), s.edges = e :: rest → s.wasReset = true →
    e.rst = false → e.cmdValid = true → step s = exec (decode e.cmd) { s with edges := rest }) ∧
  (∀ (s : State) (w : Nat),
    step (s.withFetchWord 8 w) = exec (decode (BitVec.ofNat 8 w)) { s with wasReset := true }) ∧
  (∀ s : State, s.edges = [] → step s = .next s)

/-- 70_reset R137, 92 D15: before the first reset no command has a meaning; the step refuses it by name, and after any
reset edge the block counts as reset. (The flag that says so is the model's, assumption 3.) -/
def Obligations.CommandBeforeResetIsRefused : Prop :=
  (∀ (s : State) (e : ClockEdge) (rest : List ClockEdge), s.edges = e :: rest → s.wasReset = false →
    e.rst = false → e.cmdValid = true → step s = .refused .commandBeforeReset) ∧
  (∀ (s : State) (e : ClockEdge) (rest : List ClockEdge), s.edges = e :: rest → e.rst = true →
    ∃ t, step s = .next t ∧ t.wasReset = true ∧ t.edges = rest)

/-- 60_exceptions R132: every state accepts a next command, and a block that has been reset never stops. -/
def Obligations.EveryStateAcceptsACommand : Prop :=
  (∀ (i : Instr) (s : State), ∃ t, exec i s = .next t) ∧
  (∀ (s : State), s.wasReset = true → ∃ t, step s = .next t ∧ t.wasReset = true)

/-! ### NOP and START -/

/-- 43_control R105: NOP, the word `00`, does nothing, in every state. -/
def Obligations.NopChangesNothing : Prop :=
  decode 0x00 = .nop ∧ ∀ s : State, exec .nop s = .next s

/-- 40_bitpacker R64: START, the word `20`, in IDLE, ACTIVE and DONE sets the datapath registers, ERR and STATE and does not
write HASH; in FAULT it is ignored. Where it is carried out every output but `state` reads 0, and a second START right
after it changes nothing. -/
def Obligations.StartBeginsATransaction : Prop :=
  decode 0x20 = .start ∧ ∀ s : State,
    (s.seq = .fault → exec .start s = .next s) ∧
    (s.seq ≠ .fault → ∃ t, exec .start s = .next t ∧
      t = { acc := 0, nbits := 0, last := 0, ne := false, bcnt := 0, ver := 0, seq := .active, err := .eNone
            hash := s.hash, wasReset := s.wasReset, edges := s.edges } ∧
      t.outputs = { state := 1, err := 0, done := 0, ok := 0, fault := 0, ver := 0, atype := 0, hsize := 0 } ∧
      (∀ a, rdData t a = 0) ∧ exec .start t = .next t)

/-! ### PUSH -/

/-- 40_bitpacker R65, R67: PUSH g, the word `40 + g`, raises F_SEQ in IDLE and DONE and is ignored in FAULT; in ACTIVE, from an accumulator that holds buffered bits only (10_state R11), packs the
group. With `x = ACC * 32 + g`: fewer than eight bits stay buffered whole; otherwise the top eight become a byte, which
goes to VER (byte 0), to `HASH[BCNT - 1]` (bytes 1 to 64) or nowhere (later bytes), and BCNT counts it up to 127. -/
def Obligations.PushPacksOneGroup : Prop :=
  (∀ g : Group, decode (0x40 + g.setWidth 8) = .push g) ∧
  (∀ (g : Group) (s : State), s.seq = .idle ∨ s.seq = .done →
    exec (.push g) s = .next { s with err := .fSeq, seq := .fault }) ∧
  (∀ (g : Group) (s : State), s.seq = .fault → exec (.push g) s = .next s) ∧
  ∀ (g : Group) (s : State), s.seq = .active → s.acc.toNat < 2 ^ s.nbits.toNat →
    ∃ t, exec (.push g) s = .next t ∧ t.last = g ∧ t.ne = true ∧ t.seq = .active ∧ t.err = s.err ∧
      (s.nbits.toNat + 5 < 8 →
        t.acc.toNat = s.acc.toNat * 32 + g.toNat ∧ t.nbits.toNat = s.nbits.toNat + 5 ∧
        t.bcnt = s.bcnt ∧ t.ver = s.ver ∧ ∀ a, hashRead t.hash a = hashRead s.hash a) ∧
      (8 ≤ s.nbits.toNat + 5 →
        ∃ (r : Nat) (b : Byte), r = s.nbits.toNat + 5 - 8 ∧ b.toNat = (s.acc.toNat * 32 + g.toNat) / 2 ^ r ∧
          t.acc.toNat = (s.acc.toNat * 32 + g.toNat) % 2 ^ r ∧ t.nbits.toNat = r ∧
          t.bcnt.toNat = min (s.bcnt.toNat + 1) 127 ∧
          (s.bcnt.toNat = 0 → t.ver = b ∧ ∀ a, hashRead t.hash a = hashRead s.hash a) ∧
          (1 ≤ s.bcnt.toNat → s.bcnt.toNat ≤ 64 → t.ver = s.ver ∧
            ∀ a, hashRead t.hash a = if a = s.bcnt.toNat - 1 then some b else hashRead s.hash a) ∧
          (64 < s.bcnt.toNat → t.ver = s.ver ∧ ∀ a, hashRead t.hash a = hashRead s.hash a))

/-- The frame of PUSH, in every state (20_memory R32; 10_state R10, column "written by"). The pins and `wasReset` stay. In
ACTIVE STATE and ERR stay; VER stays unless the byte produced is byte 0; every byte of HASH stays but the one at
`BCNT - 1` when a byte is produced with `1 <= BCNT <= 64`. In FAULT nothing changes; in IDLE and DONE only ERR and STATE. -/
def Obligations.PushFrame : Prop :=
  ∀ (g : Group) (s t : State), exec (.push g) s = .next t →
    t.wasReset = s.wasReset ∧ t.edges = s.edges ∧
    (s.seq = .active → t.seq = s.seq ∧ t.err = s.err) ∧
    (¬ (s.seq = .active ∧ 3 ≤ s.nbits.toNat ∧ s.bcnt.toNat = 0) → t.ver = s.ver) ∧
    (¬ (s.seq = .active ∧ 3 ≤ s.nbits.toNat) → t.bcnt = s.bcnt) ∧
    (∀ a, ¬ (s.seq = .active ∧ 3 ≤ s.nbits.toNat ∧ 1 ≤ s.bcnt.toNat ∧ s.bcnt.toNat ≤ 64 ∧ a = s.bcnt.toNat - 1) →
      hashRead t.hash a = hashRead s.hash a) ∧
    (s.seq ≠ .active → t.acc = s.acc ∧ t.nbits = s.nbits ∧ t.last = s.last ∧ t.ne = s.ne) ∧
    (s.seq = .fault → t = s)

/-- 40_bitpacker R66: there is no limit on the number of PUSH commands: any list of them is carried out from ACTIVE, the
block stays in ACTIVE, and LAST is the last group. -/
def Obligations.AnyNumberOfPushesIsCarriedOut : Prop :=
  ∀ (gs : List Group) (s : State), s.seq = .active →
    ∃ t, runCommands (gs.map .push) s = .next t ∧ t.seq = .active ∧ t.err = s.err ∧
      t.last = gs.getLast?.getD s.last ∧ t.nbits.toNat = (s.nbits.toNat + gs.length * 5) % 8

/-! ### END -/

/-- 41_validator R75: END, the word `60`, raises F_SEQ in IDLE and DONE and is ignored in FAULT; in ACTIVE it makes the six
checks in order over the registers, the first that fails gives the code, ERR and STATE are written and nothing else,
`done` becomes 1, and `ok` becomes 1 exactly on success. -/
def Obligations.EndGivesTheVerdict : Prop :=
  decode 0x60 = .finish ∧
  (∀ s : State, s.seq = .idle ∨ s.seq = .done → exec .finish s = .next { s with err := .fSeq, seq := .fault }) ∧
  (∀ s : State, s.seq = .fault → exec .finish s = .next s) ∧
  ∀ s : State, s.seq = .active →
    ∃ t, exec .finish s = .next t ∧ t.outputs.done = 1 ∧ (t.outputs.ok = 1 ↔ t.err = .eNone) ∧
    t =
      { s with
        seq := .done
        err :=
          if s.ne = false then .eEmpty
          else if 5 ≤ s.nbits.toNat then .ePadSize
          else if s.last.toNat % 2 ^ s.nbits.toNat ≠ 0 then .ePadNonzero
          else if 128 ≤ s.ver.toNat then .eReserved
          else if (s.bcnt.toNat : Int) - 1 ≠
              ((20 + 4 * (s.ver.toNat % 4)) * (if s.ver.toNat / 4 % 2 = 1 then 2 else 1) : Nat) then .eLength
          else if 2 ≤ s.ver.toNat / 8 % 16 then .eType
          else .eNone }

/-- 41_validator R83 (and 60_exceptions R119): the checks are made in the fixed order and the first that fails decides ERR:
ERR is 0 exactly when no check fails, and is the number of a check exactly when it fails and none before it does. -/
def Obligations.FirstFailingCheckDecides : Prop :=
  ∀ s : State, s.seq = .active → ∃ t, exec .finish s = .next t ∧
    (t.err.code.toNat = 0 ↔ ∀ c < 6, (failingChecks s)[c]? = some false) ∧
    (∀ c < 6, t.err.code.toNat = c + 1 ↔
      (failingChecks s)[c]? = some true ∧ ∀ d < c, (failingChecks s)[d]? = some false)

/-- 60_exceptions R120: error entry. When a check of an END in ACTIVE fails, ERR takes the code of the cause raised, which is
the first check that fails, STATE becomes DONE and that is all; `err` shows the code, `done = 1`, `ok = 0`, and every
result output and every read address reads 0. -/
def Obligations.ErrorEntryHidesTheResults : Prop :=
  ∀ s : State, s.seq = .active → true ∈ failingChecks s → ∃ t, exec .finish s = .next t ∧
    t = { s with err := t.err, seq := .done } ∧ t.err ≠ .eNone ∧
    (∃ c < 6, (failingChecks s)[c]? = some true ∧ (∀ d < c, (failingChecks s)[d]? = some false) ∧
      t.err.code.toNat = c + 1) ∧
    t.outputs.err = t.err.code ∧ t.outputs.done = 1 ∧ t.outputs.ok = 0 ∧
    t.outputs.ver = 0 ∧ t.outputs.atype = 0 ∧ t.outputs.hsize = 0 ∧ ∀ a, rdData t a = 0

/-- 41_validator R79, R85: in a state that satisfies the invariant, once the checks before it have passed, at least one
byte has been produced when the fourth check is reached, and the bits left in ACC are all zero. -/
def Obligations.ChecksRelyOnTheOnesBefore : Prop :=
  ∀ s : State, s.Inv → s.wasReset = true → failsNonEmpty s = false → failsAllowedPadding s = false →
    1 ≤ s.bcnt.toNat ∧ (failsZeroPadding s = false → s.acc = 0)

/-! ### Reserved words, sequencing, faults -/

/-- 43_control R106 (the words are those of 30_encoding R49): each of the sixteen reserved rows, in IDLE, ACTIVE and DONE,
raises F_CMD and writes nothing but ERR and STATE, and in FAULT is ignored; every word with `op` 4 to 7, or with `op` 0,
1 or 3 and a nonzero `arg`, is such a row. -/
def Obligations.ReservedWordRaisesCommandFault : Prop :=
  (∀ (i : Instr) (s : State), commandKind i = .reserved → s.seq ≠ .fault →
    exec i s = .next { s with err := .fCmd, seq := .fault }) ∧
  (∀ (i : Instr) (s : State), commandKind i = .reserved → s.seq = .fault → exec i s = .next s) ∧
  (∀ w : CommandWord, 128 ≤ w.toNat ∨ (w.toNat / 32 ≠ 2 ∧ w.toNat % 32 ≠ 0) → commandKind (decode w) = .reserved) ∧
  Err.fCmd.code = 8

/-- 43_control R107: STATE after every command in every state is as the sequencer's table gives it, and so is what the table
says of the rest: NOP anywhere and every command in FAULT write nothing, START clears ERR, PUSH in ACTIVE keeps it, END
in ACTIVE gives a code from 0 to 6, PUSH or END in IDLE or DONE writes ERR = 9 and STATE and nothing else, a reserved word
ERR = 8; reset, from any state, goes to IDLE. -/
def Obligations.SequencerFollowsItsTable : Prop :=
  (∀ (i : Instr) (s : State), ∃ t, exec i s = .next t ∧ t.seq = sequencerTable s.seq (commandKind i) ∧
    (s.seq = .fault ∨ commandKind i = .nop → t = s) ∧
    (s.seq ≠ .fault → commandKind i = .start → t.err.code = 0) ∧
    (s.seq = .active → commandKind i = .push → t.err = s.err) ∧
    (s.seq = .active → commandKind i = .finish → t.err.code.toNat ≤ 6) ∧
    (s.seq ≠ .fault → commandKind i = .reserved → t = { s with err := .fCmd, seq := .fault })) ∧
  (∀ (i : Instr) (s : State), s.seq = .idle ∨ s.seq = .done → commandKind i = .push ∨ commandKind i = .finish →
    exec i s = .next { s with err := .fSeq, seq := .fault }) ∧
  (∀ (s : State) (e : ClockEdge) (rest : List ClockEdge), s.edges = e :: rest → e.rst = true →
    ∃ t, step s = .next t ∧ t.seq = .idle) ∧
  Err.fCmd.code = 8 ∧ Err.fSeq.code = 9 ∧
  Seq.idle.code = 0 ∧ Seq.active.code = 1 ∧ Seq.done.code = 2 ∧ Seq.fault.code = 3

/-- 43_control R108: in FAULT every command is ignored; nothing but a reset edge leaves FAULT, and reset does. -/
def Obligations.FaultIsLeftByResetOnly : Prop :=
  (∀ (i : Instr) (s : State), s.seq = .fault → exec i s = .next s) ∧
  (∀ (s t : State) (e : ClockEdge) (rest : List ClockEdge), s.seq = .fault → s.edges = e :: rest →
    step s = .next t → (e.rst = false → t = { s with edges := rest }) ∧ (e.rst = true → t.seq = .idle ∧ t.err = .eNone))

/-- 60_exceptions R124: the block enters FAULT exactly when a reserved word is accepted, or PUSH or END outside ACTIVE; the
code tells which, 8 or 9; and no code is 7 or above 9. -/
def Obligations.FaultsAreProtocolBreaches : Prop :=
  (∀ (i : Instr) (s : State), s.seq ≠ .fault →
    ∃ t, exec i s = .next t ∧
      (t.safe = false ↔ commandKind i = .reserved ∨
        ((commandKind i = .push ∨ commandKind i = .finish) ∧ (s.seq = .idle ∨ s.seq = .done))) ∧
      (t.safe = false ↔ legalIn s.seq (commandKind i) = false) ∧
      (t.safe = false → t.err.code.toNat = if commandKind i = .reserved then 8 else 9)) ∧
  (∀ e : Err, e.code.toNat ≤ 9 ∧ e.code.toNat ≠ 7)

/-- 60_exceptions R125: fault entry. A command that is not legal in the state takes ERR to the fault's code and STATE to
FAULT and writes nothing else; `fault = 1`, `done = 0`, `ok = 0` and every result output and read address reads 0, also
over a good result. From there no command changes anything. -/
def Obligations.FaultEntryHidesTheResults : Prop :=
  ∀ (i : Instr) (s : State), legalIn s.seq (commandKind i) = false → s.seq ≠ .fault → ∃ t, exec i s = .next t ∧
    t = { s with err := t.err, seq := .fault } ∧ t.err.code.toNat = (if commandKind i = .reserved then 8 else 9) ∧
    t.outputs.fault = 1 ∧ t.outputs.done = 0 ∧ t.outputs.ok = 0 ∧
    t.outputs.ver = 0 ∧ t.outputs.atype = 0 ∧ t.outputs.hsize = 0 ∧ (∀ a, rdData t a = 0) ∧
    ∀ j : Instr, exec j t = .next t

/-- 60_exceptions R116: only END raises an error, and only in ACTIVE: if ERR becomes one of the codes 1 to 6, the command
was END in ACTIVE. -/
def Obligations.OnlyEndRaisesErrors : Prop :=
  ∀ (i : Instr) (s t : State), exec i s = .next t → t.err ≠ s.err → 1 ≤ t.err.code.toNat → t.err.code.toNat ≤ 6 →
    i = .finish ∧ s.seq = .active ∧ t.seq = .done

/-- The frame of the commands that are not PUSH (10_state R10, 20_memory R32): NOP, START, END and the sixteen reserved
rows leave every byte of HASH, the pins and `wasReset`; all but START leave the six datapath registers too. -/
def Obligations.FrameOfTheOtherCommands : Prop :=
  ∀ (i : Instr) (s t : State), commandKind i ≠ .push → exec i s = .next t →
    (∀ a, hashRead t.hash a = hashRead s.hash a) ∧ t.edges = s.edges ∧ t.wasReset = s.wasReset ∧
    (commandKind i ≠ .start →
      t.acc = s.acc ∧ t.nbits = s.nbits ∧ t.last = s.last ∧ t.ne = s.ne ∧ t.bcnt = s.bcnt ∧ t.ver = s.ver)

/-! ### HASH, the read port, the outputs -/

/-- 20_memory R32: if a step changes a byte of HASH, the edge carries a PUSH accepted in ACTIVE, the byte is the one at
index `BCNT - 1` with `1 <= BCNT <= 64`, BCNT being its value before the PUSH, and no other byte changes. -/
def Obligations.OnlyPushWritesHash : Prop :=
  ∀ (s t : State) (a : Nat), step s = .next t → hashRead t.hash a ≠ hashRead s.hash a →
    (∃ (e : ClockEdge) (rest : List ClockEdge) (g : Group), s.edges = e :: rest ∧ e.rst = false ∧ e.cmdValid = true ∧
      decode e.cmd = .push g) ∧
    s.seq = .active ∧ 1 ≤ s.bcnt.toNat ∧ s.bcnt.toNat ≤ 64 ∧ a = s.bcnt.toNat - 1 ∧
    ∀ x, x ≠ a → hashRead t.hash x = hashRead s.hash x

/-- 20_memory R33: the read port. It shows HASH exactly when STATE = DONE, ERR = 0 and `rd_addr < hsize(VER)`, and 0
otherwise; and in a state that satisfies the invariant every byte it shows has been written, `BCNT = hsize(VER) + 1`. -/
def Obligations.ReadPortShowsWrittenBytesOnly : Prop :=
  ∀ (s : State) (a : ReadAddr), s.Inv → s.wasReset = true →
    (s.seq = .done → s.err = .eNone → a.toNat < (hsize s.ver).toNat →
      s.bcnt.toNat = (hsize s.ver).toNat + 1 ∧ ∃ b, hashRead s.hash a.toNat = some b ∧ rdData s a = b) ∧
    (¬ (s.seq = .done ∧ s.err = .eNone ∧ a.toNat < (hsize s.ver).toNat) → rdData s a = 0)

/-- 10_state R24, 20_memory R33: every output port that reads the state, `rd_data` among them. (What `HASH[rd_addr]` is where
nothing has written it is the free value of assumption 4.) -/
def Obligations.OutputsAreGated : Prop :=
  ∀ (s : State) (a : ReadAddr),
    s.outputs.state = s.seq.code ∧ s.outputs.err = s.err.code ∧
    (s.outputs.done = 1 ↔ s.seq = .done) ∧ (s.outputs.fault = 1 ↔ s.seq = .fault) ∧
    (s.outputs.ok = 1 ↔ s.seq = .done ∧ s.err = .eNone) ∧
    (s.outputs.ok = 1 → s.outputs.ver = s.ver ∧ s.outputs.atype.toNat = s.ver.toNat / 8 % 2 ∧
      s.outputs.hsize = hsize s.ver ∧
      rdData s a =
        if a.toNat < (hsize s.ver).toNat then (hashRead s.hash a.toNat).getD (Config.unwrittenHash a) else 0) ∧
    (s.outputs.ok = 0 → s.outputs.ver = 0 ∧ s.outputs.atype = 0 ∧ s.outputs.hsize = 0 ∧ rdData s a = 0)

/-- 41_validator R87, 42_version_byte R95: in a state that satisfies the invariant, `ok` means a version byte of a known
type whose size is one of the eight, and the outputs are what `vdec` gives. -/
def Obligations.SuccessMeansAValidVersionByte : Prop :=
  ∀ s : State, s.Inv → s.wasReset = true → s.seq = .done → s.err = .eNone →
    s.ver.toNat < 16 ∧ s.outputs.hsize.toNat ∈ [20, 24, 28, 32, 40, 48, 56, 64] ∧
    ∃ ty, vdec s.ver = .ok (ty, s.outputs.hsize) ∧ s.outputs.atype = ty.number ∧
      s.outputs.atype.toNat = (tsel s.ver).toNat

/-! ### Encodings -/

/-- 30_encoding R46, R47, R49: decode and encode agree. Every well-formed command, with every operand, is read back from its
word; and every word is the word of the well-formed command it decodes to, so that no bit is dropped and no word is
read two ways. -/
def Obligations.DecodeEncodeRoundTrip : Prop :=
  (∀ i : Instr, i.wellFormed = true → decode (encode i) = i) ∧
  (∀ w : CommandWord, (decode w).wellFormed = true ∧ encode (decode w) = w)

/-- 30_encoding R57: the whole decode procedure, by `op = w[7:5]` and `arg = w[4:0]`. -/
def Obligations.DecodeProcedure : Prop :=
  ∀ w : CommandWord,
    (w.toNat / 32 = 2 → decode w = .push (BitVec.ofNat 5 (w.toNat % 32))) ∧
    (w.toNat / 32 = 0 ∧ w.toNat % 32 = 0 → decode w = .nop) ∧
    (w.toNat / 32 = 1 ∧ w.toNat % 32 = 0 → decode w = .start) ∧
    (w.toNat / 32 = 3 ∧ w.toNat % 32 = 0 → decode w = .finish) ∧
    (w.toNat / 32 ≠ 2 ∧ ¬ (w.toNat % 32 = 0 ∧ w.toNat / 32 ∈ [0, 1, 3]) → commandKind (decode w) = .reserved)

/-- A few words of 30_encoding R47, R49 and R55, written out, decode to the command they stand for. -/
def Obligations.SampleWordsDecode : Prop :=
  decode 0b00000000 = .nop ∧ decode 0b00100000 = .start ∧ decode 0b01010110 = .push 22 ∧
  decode 0b01100000 = .finish ∧ decode 0b00000001 = .reserved0101 ∧ decode 0b00111111 = .reserved303F 31 ∧
  decode 0b01100101 = .reserved6467 5 ∧ decode 0b10011010 = .reserved80FF 4 26

/-- 42_version_byte R90: the three fields of a byte, and that they make it up. -/
def Obligations.VersionByteFields : Prop :=
  ∀ v : Byte, (rsv v).toNat = v.toNat / 128 ∧ (tsel v).toNat = v.toNat / 8 % 16 ∧ (ssel v).toNat = v.toNat % 8 ∧
    v.toNat = (rsv v).toNat * 128 + (tsel v).toNat * 8 + (ssel v).toNat

/-- 42_version_byte R92: `hsize` for every byte; only the size selector matters. -/
def Obligations.HashSizeFormula : Prop :=
  ∀ v : Byte,
    (hsize v).toNat = (20 + 4 * (v.toNat % 4)) * (if v.toNat / 4 % 2 = 1 then 2 else 1) ∧
    hsize v = hsize (v &&& 7) ∧ (hsize v).toNat ≤ 64

/-- 42_version_byte R96, 30_encoding R52: `hsize` is a bijection between the size selectors 0 to 7 and the eight sizes. -/
def Obligations.HashSizeIsABijection : Prop :=
  (∀ v w : Byte, hsize v = hsize w → ssel v = ssel w) ∧
  (∀ v : Byte, Config.hashSizes[(ssel v).toNat]? = some (hsize v).toNat) ∧
  Config.hashSizes = [20, 24, 28, 32, 40, 48, 56, 64]

/-- 42_version_byte R93, R100: `vdec` on every byte: 16 decode, 112 give unknown type, 128 the reserved bit. -/
def Obligations.VersionByteDecode : Prop :=
  ∀ v : Byte,
    (128 ≤ v.toNat → vdec v = .error .reserved) ∧
    (16 ≤ v.toNat → v.toNat < 128 → vdec v = .error .unknownType) ∧
    (8 ≤ v.toNat → v.toNat < 16 → vdec v = .ok (.scriptHash, hsize v)) ∧
    (v.toNat < 8 → vdec v = .ok (.pubKeyHash, hsize v))

/-- 42_version_byte R94: the standalone decoder port, for every input. -/
def Obligations.DecoderPort : Prop :=
  ∀ v : Byte,
    (vbRsv v).toNat = v.toNat / 128 ∧ (vbTsel v).toNat = v.toNat / 8 % 16 ∧ (vbSsel v).toNat = v.toNat % 8 ∧
    (vbSize v).toNat = (20 + 4 * (v.toNat % 4)) * (if v.toNat / 4 % 2 = 1 then 2 else 1) ∧
    (vbErr v).toNat = (if 128 ≤ v.toNat then 1 else if 16 ≤ v.toNat then 2 else 0) ∧
    (vbType v).toNat = (if v.toNat < 16 then v.toNat / 8 else 0)

/-- 42_version_byte R98: `venc` packs the type into bits 6 to 3 and the index of the size into bits 2 to 0, with bit 7 = 0,
and errs exactly outside the eight sizes. (That the error has no kind is assumption 10.) -/
def Obligations.VersionByteEncode : Prop :=
  (∀ (t : AddressType) (n : Nat), n ∈ [20, 24, 28, 32, 40, 48, 56, 64] →
    ∃ v, venc t n = some v ∧ v.toNat / 8 = t.number.toNat ∧ [20, 24, 28, 32, 40, 48, 56, 64][v.toNat % 8]? = some n) ∧
  (∀ (t : AddressType) (n : Nat), n ∉ [20, 24, 28, 32, 40, 48, 56, 64] → venc t n = none)

/-- 42_version_byte R99, which the spec derives: `vdec` and `venc` are inverse to each other. -/
def Obligations.VersionByteRoundTrip : Prop :=
  (∀ (t : AddressType) (n : Nat), n ∈ [20, 24, 28, 32, 40, 48, 56, 64] →
    ∃ v, venc t n = some v ∧ v.toNat < 16 ∧ vdec v = .ok (t, BitVec.ofNat 7 n)) ∧
  (∀ (v : Byte) (t : AddressType) (n : BitVec 7), vdec v = .ok (t, n) → venc t n.toNat = some v)

/-! ### The invariant -/

/-- The reset state satisfies the invariant (10_state R26). -/
def Obligations.ResetMeetsTheInvariant : Prop :=
  State.reset.Inv ∧ State.reset.wasReset = true

/-- 10_state R17, R18, R21; 20_memory R33: every step keeps the invariant: the buffer stays in canonical form, only the low
NBITS bits of ACC are used, BCNT and NBITS count whole groups, NE, LAST and VER say what was pushed, the counted hash
bytes are written, and ERR agrees with STATE and with the checks. -/
def Obligations.EveryStepKeepsTheInvariant : Prop :=
  ∀ s t : State, s.Inv → step s = .next t → t.Inv

/-! ### The reference function `repack` -/

/-- 40_bitpacker R61 (a), (b), (c): how many bits the loop leaves and how many elements `repack` gives, for positive
widths. -/
def Obligations.RepackCounts : Prop :=
  ∀ (fromBits toBits : Nat) (input : List (BitVec fromBits)), 0 < fromBits → 0 < toBits →
    (packLoop fromBits toBits input).bits = input.length * fromBits % toBits ∧
    (∀ out, repack fromBits toBits false input = .ok out → out.length = input.length * fromBits / toBits) ∧
    (∃ out, repack fromBits toBits true input = .ok out ∧
      out.length = (input.length * fromBits + (toBits - 1)) / toBits)

/-- 40_bitpacker R62 (90_conflicts C7): the inverse law, and its converse: a payload comes back exactly when it leaves
fewer than 5 bits and they are zero. -/
def Obligations.RepackInverse : Prop :=
  (∀ x : List Byte, ∃ y : List Group, repack 8 5 true x = .ok y ∧ repack 5 8 false y = .ok x) ∧
  (∀ y : List Group,
    (∃ x : List Byte, repack 5 8 false y = .ok x ∧ repack 8 5 true x = .ok y) ↔
      y.length * 5 % 8 < 5 ∧ ∀ g, y.getLast? = some g → g.toNat % 2 ^ (y.length * 5 % 8) = 0)

/-- 41_validator R84: the outcome by the number of groups `n`, row by row of its table. None is E_EMPTY; `n mod 8` in
1, 3, 6 is E_PAD_SIZE; any other `n` outside the eight listed counts is E_PAD_NONZERO, E_RESERVED or E_LENGTH; success
needs a listed count and has the hash size beside it; and each listed count can succeed. -/
def Obligations.OutcomeByNumberOfGroups : Prop :=
  (∀ g : List Group,
    (g.length = 0 → outcome g = .eEmpty) ∧
    (g.length % 8 ∈ [1, 3, 6] → outcome g = .ePadSize) ∧
    (2 ≤ g.length → g.length % 8 ∈ [0, 2, 4, 5, 7] → g.length ∉ [34, 40, 47, 53, 66, 79, 92, 104] →
      outcome g ∈ [Err.ePadNonzero, .eReserved, .eLength]) ∧
    (outcome g = .eNone → ∃ v h, repackPayload g = .ok (v :: h) ∧ (g.length, h.length) ∈
      [(34, 20), (40, 24), (47, 28), (53, 32), (66, 40), (79, 48), (92, 56), (104, 64)])) ∧
  ∀ n ∈ [34, 40, 47, 53, 66, 79, 92, 104], ∃ g : List Group, g.length = n ∧ outcome g = .eNone

/-! ### Transactions -/

/-- 10_state R21, 40_bitpacker R63: after START and any groups, the registers are those of the loop of `repack` at
(5, 8): NBITS its bit count, ACC its leftover, VER and HASH its bytes, BCNT their number up to 127, NE and LAST the
groups'. -/
def Obligations.RegistersFollowTheStream : Prop :=
  ∀ (gs : List Group) (s : State), s.seq ≠ .fault →
    ∃ (t : State) (p : Packing 8), runCommands (.start :: gs.map .push) s = .next t ∧ p = packLoop 5 8 gs ∧
      t.seq = .active ∧ t.err = .eNone ∧
      t.nbits.toNat = p.bits ∧ t.nbits.toNat = gs.length * 5 % 8 ∧
      t.acc.toNat = p.leftover ∧
      t.bcnt.toNat = min p.out.length 127 ∧ t.bcnt.toNat = min (gs.length * 5 / 8) 127 ∧
      t.ne = !gs.isEmpty ∧ t.last = gs.getLast?.getD 0 ∧
      (1 ≤ gs.length → t.nbits.toNat ≤ 5 → t.acc.toNat = t.last.toNat % 2 ^ t.nbits.toNat) ∧
      t.ver = p.out.head?.getD 0 ∧
      ∀ i b, i ≤ 63 → p.out[i + 1]? = some b → hashRead t.hash i = some b

/-- 41_validator R86, the transaction law: from any state but FAULT, a stream of clock edges without a reset whose commands
other than NOP are START, one PUSH per group and END, with NOPs and idle edges anywhere between, ends in DONE with
`ERR = outcome(g)`. On success the outputs are the version byte, its type and size and the bytes of the data; on
failure they are 0. -/
def Obligations.TransactionLaw : Prop :=
  ∀ (g : List Group) (s : State) (stream rest : List ClockEdge),
    s.wasReset = true → s.seq ≠ .fault → s.edges = stream ++ rest → (∀ e ∈ stream, e.rst = false) →
    commandsOf stream = payloadCommands g →
    ∃ t, runEdges stream.length s = .next t ∧ t.edges = rest ∧ t.seq = .done ∧ t.err = outcome g ∧
      (outcome g = .eNone → ∃ (v : Byte) (h : List Byte), repackPayload g = .ok (v :: h) ∧
        t.outputs.ok = 1 ∧ t.outputs.ver = v ∧ t.outputs.atype.toNat = (tsel v).toNat ∧
        t.outputs.hsize = hsize v ∧ (hsize v).toNat = h.length ∧
        ∀ a : ReadAddr, rdData t a = h.getD a.toNat 0) ∧
      (outcome g ≠ .eNone → t.outputs.ok = 0 ∧ t.outputs.ver = 0 ∧ t.outputs.atype = 0 ∧ t.outputs.hsize = 0 ∧
        ∀ a : ReadAddr, rdData t a = 0)

/-- 70_reset R138, 20_memory R33: a transaction shows nothing of what came before its START: run from any two states that
are not FAULT, it ends with the same values on every output, at every read address. -/
def Obligations.TransactionsAreIndependent : Prop :=
  ∀ (g : List Group) (s s' : State), s.seq ≠ .fault → s'.seq ≠ .fault →
    ∃ t t', runCommands (payloadCommands g) s = .next t ∧ runCommands (payloadCommands g) s' = .next t' ∧
      t.outputs = t'.outputs ∧ ∀ a : ReadAddr, rdData t a = rdData t' a

/-- 42_version_byte R99, 30_encoding R56: for both types and every hash of one of the eight sizes, the commands of
`ADDRESS t, hash` end with `ok = 1`, the type, the size, and the read port returning the hash. -/
def Obligations.AddressRoundTrip : Prop :=
  ∀ (ty : AddressType) (hash : List Byte) (s : State), hash.length ∈ [20, 24, 28, 32, 40, 48, 56, 64] →
    s.seq ≠ .fault →
    ∃ cmds t, addressCommands ty hash = .ok cmds ∧ runCommands cmds s = .next t ∧
      t.outputs.ok = 1 ∧ t.outputs.atype = ty.number ∧ t.outputs.hsize.toNat = hash.length ∧
      ∀ a : ReadAddr, rdData t a = hash.getD a.toNat 0

/-! ### Assembler notation -/

/-- 30_encoding R56: the three pseudo-instructions' expansions; ADDRESS errs exactly outside the eight sizes. -/
def Obligations.PseudoInstructionExpansions : Prop :=
  (∀ g : List Group, payloadCommands g = [.start] ++ g.map .push ++ [.finish]) ∧
  (∀ bytes : List Byte, ∃ g : List Group, repack 8 5 true bytes = .ok g ∧ pushBytes bytes = .ok (g.map .push)) ∧
  (∀ (ty : AddressType) (hash : List Byte), hash.length ∉ [20, 24, 28, 32, 40, 48, 56, 64] →
    addressCommands ty hash = .error .hashSize) ∧
  (∀ (ty : AddressType) (hash : List Byte), hash.length ∈ [20, 24, 28, 32, 40, 48, 56, 64] →
    ∃ v pushes, venc ty hash.length = some v ∧ pushBytes (v :: hash) = .ok pushes ∧
      addressCommands ty hash = .ok ([.start] ++ pushes ++ [.finish]))

/-- 30_encoding R55: the spec's own sample lines, a raw word, and an operand out of range. -/
def Obligations.AssemblerSampleLines : Prop :=
  assembleLine "NOP            ; 0x00".toList = .ok [0x00] ∧
  assembleLine "START          ; 0x20".toList = .ok [0x20] ∧
  assembleLine "PUSH 22        ; 0x56   (0x40 + 22)".toList = .ok [0x56] ∧
  assembleLine "PUSH 0x16      ; 0x56   the same".toList = .ok [0x56] ∧
  assembleLine "END            ; 0x60".toList = .ok [0x60] ∧
  assembleLine ".word 0x9A".toList = .ok [0x9A] ∧
  assembleLine "PUSH 32".toList = .error .operandRange
end

