-- ==== Sys2Proof/Laws/Memory.lean ====
section
/-!
SUPPORT. The HASH buffer: read after write, and the canonical form.
-/

namespace Sys2Proof.Machine

theorem hashRead_write_same (m : List Host.Cell) (a : Nat) (b : Byte) :
    hashRead (hashWrite m a b) a = some b := by
  induction m with
  | nil => simp [hashWrite, hashRead]
  | cons c m ih =>
    simp only [hashWrite]
    split_ifs with h1 h2
    · simp [hashRead]
    · simp [hashRead]
    · simp [hashRead, Ne.symm h2, ih]

theorem hashRead_write_other (m : List Host.Cell) (a x : Nat) (b : Byte) (h : x ≠ a) :
    hashRead (hashWrite m a b) x = hashRead m x := by
  induction m with
  | nil => simp [hashWrite, hashRead, Ne.symm h]
  | cons c m ih =>
    simp only [hashWrite]
    split_ifs with h1 h2
    · simp [hashRead, Ne.symm h]
    · subst h2; simp [hashRead, Ne.symm h]
    · simp [hashRead, ih]

/-- Every byte after a write: the written one, or the one before. -/
theorem hashRead_write (m : List Host.Cell) (a x : Nat) (b : Byte) :
    hashRead (hashWrite m a b) x = if x = a then some b else hashRead m x := by
  split_ifs with h
  · subst h; exact hashRead_write_same m x b
  · exact hashRead_write_other m a x b h

theorem hashRising_write (m : List Host.Cell) (lo a : Nat) (b : Byte) (hlo : lo ≤ a) (ha : a < 64)
    (hm : hashRising lo m = true) : hashRising lo (hashWrite m a b) = true := by
  induction m generalizing lo with
  | nil => simp [hashWrite, hashRising, hlo, ha]
  | cons c m ih =>
    simp only [hashRising, Bool.and_eq_true, decide_eq_true_eq] at hm
    obtain ⟨⟨h1, h2⟩, h3⟩ := hm
    simp only [hashWrite]
    split_ifs with hlt heq
    · simp [hashRising, hlo, ha, h2, h3, Nat.succ_le_of_lt hlt]
    · subst heq; simp [hashRising, hlo, ha, h3]
    · simp [hashRising, h1, h2, ih (c.1 + 1) (by omega) h3]

/-- A write inside the buffer keeps the canonical form. -/
theorem hashWrite_wf (m : List Host.Cell) (a : Nat) (b : Byte) (ha : a < 64) (hm : Memory.wf m = true) :
    Memory.wf (hashWrite m a b) = true :=
  hashRising_write m 0 a b (Nat.zero_le a) ha hm

theorem hashRead_below (m : List Host.Cell) (lo a : Nat) (hm : hashRising lo m = true) (ha : a < lo) :
    hashRead m a = none := by
  induction m generalizing lo with
  | nil => rfl
  | cons c m ih =>
    simp only [hashRising, Bool.and_eq_true, decide_eq_true_eq] at hm
    obtain ⟨⟨h1, -⟩, h3⟩ := hm
    have hne : c.1 ≠ a := by omega
    simp only [hashRead, if_neg hne]
    exact ih (c.1 + 1) h3 (by omega)

/-- Two canonical buffers that read alike are the same data. -/
theorem hashRead_ext (m n : List Host.Cell) (lo : Nat) (hm : hashRising lo m = true) (hn : hashRising lo n = true)
    (h : ∀ a, hashRead m a = hashRead n a) : m = n := by
  induction m generalizing lo n with
  | nil =>
    cases n with
    | nil => rfl
    | cons d n => simpa [hashRead] using h d.1
  | cons c m ih =>
    cases n with
    | nil => simpa [hashRead] using h c.1
    | cons d n =>
      simp only [hashRising, Bool.and_eq_true, decide_eq_true_eq] at hm hn
      have hc := h c.1
      have hd := h d.1
      have key : c.1 = d.1 := by
        rcases Nat.lt_trichotomy c.1 d.1 with hlt | heq | hgt
        · rw [hashRead_below (d :: n) d.1 c.1 (by simp [hashRising, hn.1.2, hn.2]) hlt] at hc
          simp [hashRead] at hc
        · exact heq
        · rw [hashRead_below (c :: m) c.1 d.1 (by simp [hashRising, hm.1.2, hm.2]) hgt] at hd
          simp [hashRead] at hd
      have val : c.2 = d.2 := by simpa [hashRead, key] using hc
      have tail : m = n := by
        refine ih n (c.1 + 1) hm.2 (key ▸ hn.2) fun a => ?_
        by_cases hlt : a < c.1 + 1
        · rw [hashRead_below m _ a hm.2 hlt, hashRead_below n _ a (key ▸ hn.2) hlt]
        · have ha := h a
          have h1 : c.1 ≠ a := by omega
          have h2 : d.1 ≠ a := by omega
          simpa only [hashRead, if_neg h1, if_neg h2] using ha
      rw [tail, Prod.ext key val]

/-- Nothing outside the buffer is ever listed. -/
theorem hashRead_outside (m : List Host.Cell) (lo a : Nat) (hm : hashRising lo m = true) (ha : 64 ≤ a) :
    hashRead m a = none := by
  induction m generalizing lo with
  | nil => rfl
  | cons c m ih =>
    simp only [hashRising, Bool.and_eq_true, decide_eq_true_eq] at hm
    have hlt : c.1 < 64 := hm.1.2
    have hne : c.1 ≠ a := by omega
    simp only [hashRead, if_neg hne]
    exact ih (c.1 + 1) hm.2

/-- The buffer of the reset state is in canonical form. -/
theorem reset_hash_wf : Memory.wf State.reset.hash = true := rfl

end Sys2Proof.Machine
end

