-- ==== Sys2Proof/Laws/State.lean ====
section
/-!
SUPPORT. One lemma per field per update, so that no later proof unfolds a record update.
-/

namespace Sys2Proof.Machine

/-! ### `takeEvent` -/

@[simp] theorem takeEvent_acc (e : Err) (q : Seq) (s : State) : (takeEvent e q s).acc = s.acc := rfl
@[simp] theorem takeEvent_nbits (e : Err) (q : Seq) (s : State) : (takeEvent e q s).nbits = s.nbits := rfl
@[simp] theorem takeEvent_last (e : Err) (q : Seq) (s : State) : (takeEvent e q s).last = s.last := rfl
@[simp] theorem takeEvent_ne (e : Err) (q : Seq) (s : State) : (takeEvent e q s).ne = s.ne := rfl
@[simp] theorem takeEvent_bcnt (e : Err) (q : Seq) (s : State) : (takeEvent e q s).bcnt = s.bcnt := rfl
@[simp] theorem takeEvent_ver (e : Err) (q : Seq) (s : State) : (takeEvent e q s).ver = s.ver := rfl
@[simp] theorem takeEvent_seq (e : Err) (q : Seq) (s : State) : (takeEvent e q s).seq = q := rfl
@[simp] theorem takeEvent_err (e : Err) (q : Seq) (s : State) : (takeEvent e q s).err = e := rfl
@[simp] theorem takeEvent_hash (e : Err) (q : Seq) (s : State) : (takeEvent e q s).hash = s.hash := rfl
@[simp] theorem takeEvent_wasReset (e : Err) (q : Seq) (s : State) : (takeEvent e q s).wasReset = s.wasReset := rfl
@[simp] theorem takeEvent_edges (e : Err) (q : Seq) (s : State) : (takeEvent e q s).edges = s.edges := rfl

/-! ### `giveVerdict` -/

@[simp] theorem giveVerdict_acc (e : Err) (s : State) : (giveVerdict e s).acc = s.acc := rfl
@[simp] theorem giveVerdict_nbits (e : Err) (s : State) : (giveVerdict e s).nbits = s.nbits := rfl
@[simp] theorem giveVerdict_last (e : Err) (s : State) : (giveVerdict e s).last = s.last := rfl
@[simp] theorem giveVerdict_ne (e : Err) (s : State) : (giveVerdict e s).ne = s.ne := rfl
@[simp] theorem giveVerdict_bcnt (e : Err) (s : State) : (giveVerdict e s).bcnt = s.bcnt := rfl
@[simp] theorem giveVerdict_ver (e : Err) (s : State) : (giveVerdict e s).ver = s.ver := rfl
@[simp] theorem giveVerdict_seq (e : Err) (s : State) : (giveVerdict e s).seq = .done := rfl
@[simp] theorem giveVerdict_err (e : Err) (s : State) : (giveVerdict e s).err = e := rfl
@[simp] theorem giveVerdict_hash (e : Err) (s : State) : (giveVerdict e s).hash = s.hash := rfl
@[simp] theorem giveVerdict_wasReset (e : Err) (s : State) : (giveVerdict e s).wasReset = s.wasReset := rfl
@[simp] theorem giveVerdict_edges (e : Err) (s : State) : (giveVerdict e s).edges = s.edges := rfl

/-! ### `raiseFault` -/

@[simp] theorem raiseFault_acc (e : Err) (s : State) : (raiseFault e s).acc = s.acc := rfl
@[simp] theorem raiseFault_nbits (e : Err) (s : State) : (raiseFault e s).nbits = s.nbits := rfl
@[simp] theorem raiseFault_last (e : Err) (s : State) : (raiseFault e s).last = s.last := rfl
@[simp] theorem raiseFault_ne (e : Err) (s : State) : (raiseFault e s).ne = s.ne := rfl
@[simp] theorem raiseFault_bcnt (e : Err) (s : State) : (raiseFault e s).bcnt = s.bcnt := rfl
@[simp] theorem raiseFault_ver (e : Err) (s : State) : (raiseFault e s).ver = s.ver := rfl
@[simp] theorem raiseFault_seq (e : Err) (s : State) : (raiseFault e s).seq = .fault := rfl
@[simp] theorem raiseFault_err (e : Err) (s : State) : (raiseFault e s).err = e := rfl
@[simp] theorem raiseFault_hash (e : Err) (s : State) : (raiseFault e s).hash = s.hash := rfl
@[simp] theorem raiseFault_wasReset (e : Err) (s : State) : (raiseFault e s).wasReset = s.wasReset := rfl
@[simp] theorem raiseFault_edges (e : Err) (s : State) : (raiseFault e s).edges = s.edges := rfl

/-! ### `closePayload` -/

@[simp] theorem closePayload_acc (s : State) : (closePayload s).acc = s.acc := rfl
@[simp] theorem closePayload_nbits (s : State) : (closePayload s).nbits = s.nbits := rfl
@[simp] theorem closePayload_last (s : State) : (closePayload s).last = s.last := rfl
@[simp] theorem closePayload_ne (s : State) : (closePayload s).ne = s.ne := rfl
@[simp] theorem closePayload_bcnt (s : State) : (closePayload s).bcnt = s.bcnt := rfl
@[simp] theorem closePayload_ver (s : State) : (closePayload s).ver = s.ver := rfl
@[simp] theorem closePayload_seq (s : State) : (closePayload s).seq = .done := rfl
@[simp] theorem closePayload_err (s : State) : (closePayload s).err = verdict s := rfl
@[simp] theorem closePayload_hash (s : State) : (closePayload s).hash = s.hash := rfl
@[simp] theorem closePayload_wasReset (s : State) : (closePayload s).wasReset = s.wasReset := rfl
@[simp] theorem closePayload_edges (s : State) : (closePayload s).edges = s.edges := rfl

/-! ### `startTransaction` -/

@[simp] theorem startTransaction_acc (s : State) : (startTransaction s).acc = 0 := rfl
@[simp] theorem startTransaction_nbits (s : State) : (startTransaction s).nbits = 0 := rfl
@[simp] theorem startTransaction_last (s : State) : (startTransaction s).last = 0 := rfl
@[simp] theorem startTransaction_ne (s : State) : (startTransaction s).ne = false := rfl
@[simp] theorem startTransaction_bcnt (s : State) : (startTransaction s).bcnt = 0 := rfl
@[simp] theorem startTransaction_ver (s : State) : (startTransaction s).ver = 0 := rfl
@[simp] theorem startTransaction_seq (s : State) : (startTransaction s).seq = .active := rfl
@[simp] theorem startTransaction_err (s : State) : (startTransaction s).err = .eNone := rfl
@[simp] theorem startTransaction_hash (s : State) : (startTransaction s).hash = s.hash := rfl
@[simp] theorem startTransaction_wasReset (s : State) : (startTransaction s).wasReset = s.wasReset := rfl
@[simp] theorem startTransaction_edges (s : State) : (startTransaction s).edges = s.edges := rfl

/-! ### `resetRegisters` -/

@[simp] theorem resetRegisters_acc (s : State) : (resetRegisters s).acc = 0 := rfl
@[simp] theorem resetRegisters_nbits (s : State) : (resetRegisters s).nbits = 0 := rfl
@[simp] theorem resetRegisters_last (s : State) : (resetRegisters s).last = 0 := rfl
@[simp] theorem resetRegisters_ne (s : State) : (resetRegisters s).ne = false := rfl
@[simp] theorem resetRegisters_bcnt (s : State) : (resetRegisters s).bcnt = 0 := rfl
@[simp] theorem resetRegisters_ver (s : State) : (resetRegisters s).ver = 0 := rfl
@[simp] theorem resetRegisters_seq (s : State) : (resetRegisters s).seq = .idle := rfl
@[simp] theorem resetRegisters_err (s : State) : (resetRegisters s).err = .eNone := rfl
@[simp] theorem resetRegisters_hash (s : State) : (resetRegisters s).hash = s.hash := rfl
@[simp] theorem resetRegisters_wasReset (s : State) : (resetRegisters s).wasReset = true := rfl
@[simp] theorem resetRegisters_edges (s : State) : (resetRegisters s).edges = s.edges := rfl

/-! ### `presentCommand` -/

@[simp] theorem presentCommand_acc (w : CommandWord) (s : State) : (presentCommand w s).acc = s.acc := rfl
@[simp] theorem presentCommand_nbits (w : CommandWord) (s : State) : (presentCommand w s).nbits = s.nbits := rfl
@[simp] theorem presentCommand_last (w : CommandWord) (s : State) : (presentCommand w s).last = s.last := rfl
@[simp] theorem presentCommand_ne (w : CommandWord) (s : State) : (presentCommand w s).ne = s.ne := rfl
@[simp] theorem presentCommand_bcnt (w : CommandWord) (s : State) : (presentCommand w s).bcnt = s.bcnt := rfl
@[simp] theorem presentCommand_ver (w : CommandWord) (s : State) : (presentCommand w s).ver = s.ver := rfl
@[simp] theorem presentCommand_seq (w : CommandWord) (s : State) : (presentCommand w s).seq = s.seq := rfl
@[simp] theorem presentCommand_err (w : CommandWord) (s : State) : (presentCommand w s).err = s.err := rfl
@[simp] theorem presentCommand_hash (w : CommandWord) (s : State) : (presentCommand w s).hash = s.hash := rfl
@[simp] theorem presentCommand_wasReset (w : CommandWord) (s : State) : (presentCommand w s).wasReset = s.wasReset := rfl
@[simp] theorem presentCommand_edges (w : CommandWord) (s : State) : (presentCommand w s).edges = ⟨false, true, w⟩ :: s.edges := rfl

/-! ### `emit`: VER, HASH and BCNT may change, nothing else does -/

@[simp] theorem emit_acc (b : Byte) (s : State) : (emit b s).acc = s.acc := by
  unfold emit; dsimp only; split_ifs <;> rfl
@[simp] theorem emit_nbits (b : Byte) (s : State) : (emit b s).nbits = s.nbits := by
  unfold emit; dsimp only; split_ifs <;> rfl
@[simp] theorem emit_last (b : Byte) (s : State) : (emit b s).last = s.last := by
  unfold emit; dsimp only; split_ifs <;> rfl
@[simp] theorem emit_ne (b : Byte) (s : State) : (emit b s).ne = s.ne := by
  unfold emit; dsimp only; split_ifs <;> rfl
@[simp] theorem emit_seq (b : Byte) (s : State) : (emit b s).seq = s.seq := by
  unfold emit; dsimp only; split_ifs <;> rfl
@[simp] theorem emit_err (b : Byte) (s : State) : (emit b s).err = s.err := by
  unfold emit; dsimp only; split_ifs <;> rfl
@[simp] theorem emit_wasReset (b : Byte) (s : State) : (emit b s).wasReset = s.wasReset := by
  unfold emit; dsimp only; split_ifs <;> rfl
@[simp] theorem emit_edges (b : Byte) (s : State) : (emit b s).edges = s.edges := by
  unfold emit; dsimp only; split_ifs <;> rfl
@[simp] theorem emit_bcnt (b : Byte) (s : State) : (emit b s).bcnt = bcntNext s.bcnt := by
  unfold emit; dsimp only; split_ifs <;> rfl

/-- Byte 0 goes to VER (40_bitpacker R67). -/
theorem emit_ver (b : Byte) (s : State) : (emit b s).ver = if s.bcnt = 0 then b else s.ver := by
  have h : s.bcnt = 0 ↔ s.bcnt.toNat = 0 := by simp [← BitVec.toNat_inj]
  unfold emit; dsimp only
  split_ifs <;> simp_all

/-- Bytes 1 to 64 go to HASH (40_bitpacker R67). -/
theorem emit_hash (b : Byte) (s : State) :
    (emit b s).hash =
      if 1 ≤ s.bcnt.toNat ∧ s.bcnt.toNat ≤ 64 then hashWrite s.hash (s.bcnt.toNat - 1) b else s.hash := by
  unfold emit; dsimp only [Config.hashBytes]
  split_ifs <;> first | rfl | omega

/-! ### `pushGroup` -/

@[simp] theorem pushGroup_last (g : Group) (s : State) : (pushGroup g s).last = g := by
  unfold pushGroup; dsimp only; split_ifs <;> simp
@[simp] theorem pushGroup_ne (g : Group) (s : State) : (pushGroup g s).ne = true := by
  unfold pushGroup; dsimp only; split_ifs <;> simp
@[simp] theorem pushGroup_seq (g : Group) (s : State) : (pushGroup g s).seq = s.seq := by
  unfold pushGroup; dsimp only; split_ifs <;> simp
@[simp] theorem pushGroup_err (g : Group) (s : State) : (pushGroup g s).err = s.err := by
  unfold pushGroup; dsimp only; split_ifs <;> simp
@[simp] theorem pushGroup_wasReset (g : Group) (s : State) : (pushGroup g s).wasReset = s.wasReset := by
  unfold pushGroup; dsimp only; split_ifs <;> simp
@[simp] theorem pushGroup_edges (g : Group) (s : State) : (pushGroup g s).edges = s.edges := by
  unfold pushGroup; dsimp only; split_ifs <;> simp

end Sys2Proof.Machine
end

