-- ==== Sys2Proof/Laws/Ops.lean ====
section
/-!
SUPPORT. What each shared operation can do, said once: the sequencing gates, the pins, and one step.
-/

namespace Sys2Proof.Machine

/-! ### The sequencing gates (43_control R107, R108) -/

theorem onlyActive_of_active {f : State → State} {s : State} (h : s.seq = .active) : onlyActive f s = f s := by
  simp [onlyActive, h]

theorem onlyActive_of_fault {f : State → State} {s : State} (h : s.seq = .fault) : onlyActive f s = s := by
  simp [onlyActive, h]

theorem unlessFault_of_fault {f : State → State} {s : State} (h : s.seq = .fault) : unlessFault f s = s := by
  simp [unlessFault, h]

theorem unlessFault_of_ne {f : State → State} {s : State} (h : s.seq ≠ .fault) : unlessFault f s = f s := by
  unfold unlessFault; split <;> simp_all

/-- Everything a command that is legal in ACTIVE only can do. -/
theorem onlyActive_cases (f : State → State) (s : State) :
    (s.seq = .active ∧ onlyActive f s = f s) ∨
    (s.seq ≠ .active ∧ s.seq ≠ .fault ∧ onlyActive f s = raiseFault .fSeq s) ∨
    (s.seq = .fault ∧ onlyActive f s = s) := by
  cases h : s.seq <;> simp [onlyActive, h]

/-- Everything a command that FAULT alone ignores can do. -/
theorem unlessFault_cases (f : State → State) (s : State) :
    (s.seq ≠ .fault ∧ unlessFault f s = f s) ∨ (s.seq = .fault ∧ unlessFault f s = s) := by
  cases h : s.seq <;> simp [unlessFault, h]

/-! ### Verdicts -/

/-- The verdict of END is never one of the two fault codes. -/
theorem verdict_cases (s : State) :
    verdict s = .eNone ∨ verdict s = .eEmpty ∨ verdict s = .ePadSize ∨ verdict s = .ePadNonzero ∨
    verdict s = .eReserved ∨ verdict s = .eLength ∨ verdict s = .eType := by
  unfold verdict; split_ifs <;> simp

/-- The verdict reads only NE, NBITS, LAST, VER and BCNT. -/
theorem verdict_congr {s t : State} (h1 : s.ne = t.ne) (h2 : s.nbits = t.nbits) (h3 : s.last = t.last)
    (h4 : s.ver = t.ver) (h5 : s.bcnt = t.bcnt) : verdict s = verdict t := by
  simp [verdict, failsNonEmpty, failsAllowedPadding, failsZeroPadding, failsFirstBit, failsDataLength, failsType,
    h1, h2, h3, h4, h5]

/-- Success means that no check fails. -/
theorem verdict_eNone_iff (s : State) :
    verdict s = .eNone ↔ failsNonEmpty s = false ∧ failsAllowedPadding s = false ∧ failsZeroPadding s = false ∧
      failsFirstBit s = false ∧ failsDataLength s = false ∧ failsType s = false := by
  unfold verdict; split_ifs <;> simp_all

/-! ### One command -/

/-- Everything `exec` can do: each command answers a next state, by one of the shared operations. -/
theorem exec_cases (i : Instr) (s : State) :
    (i = .nop ∧ exec i s = .next s) ∨
    (i = .start ∧ exec i s = .next (unlessFault startTransaction s)) ∨
    (∃ g, i = .push g ∧ exec i s = .next (onlyActive (pushGroup g) s)) ∨
    (i = .finish ∧ exec i s = .next (onlyActive closePayload s)) ∨
    exec i s = .next (reservedWord s) := by
  cases i with
  | nop => exact .inl ⟨rfl, rfl⟩
  | start => exact .inr (.inl ⟨rfl, rfl⟩)
  | push g => exact .inr (.inr (.inl ⟨g, rfl, rfl⟩))
  | finish => exact .inr (.inr (.inr (.inl ⟨rfl, rfl⟩)))
  | reserved0101 | reserved0203 | reserved0407 | reserved080F | reserved101F
  | reserved2121 | reserved2223 | reserved2427 | reserved282F | reserved303F
  | reserved6161 | reserved6263 | reserved6467 | reserved686F | reserved707F
  | reserved80FF => exact .inr (.inr (.inr (.inr rfl)))

/-! ### One clock edge -/

theorem step_nil {s : State} (h : s.edges = []) : step s = .next s := by
  simp [step, takeEdge, h]

/-- A clock edge, by what its pins ask for. -/
theorem step_cons {s : State} {e : ClockEdge} {rest : List ClockEdge} (h : s.edges = e :: rest) :
    step s = match e.action with
      | .reset => .next (resetRegisters { s with edges := rest })
      | .command w =>
        if s.wasReset then exec (decode w) { s with edges := rest } else .refused .commandBeforeReset
      | .idle => .next { s with edges := rest } := by
  simp only [step, takeEdge, h]
  cases e.action <;> rfl

end Sys2Proof.Machine
end

