-- ==== Sys2Proof/Laws/Packing.lean ====
section
/-!
SUPPORT. The arithmetic of PUSH as numbers, and everything `pushGroup` does to the datapath (40_bitpacker R65, R67).
-/

namespace Sys2Proof.Machine

/-- Masking with `mask(k)` is the remainder by `2^k`. -/
theorem and_lowMask_toNat {w : Nat} (x : BitVec w) (k : Nat) (hk : k ≤ w) :
    (x &&& lowMask w k).toNat = x.toNat % 2 ^ k := by
  have hmask : (lowMask w k).toNat = 2 ^ k - 1 := by
    rcases Nat.lt_or_ge k w with hlt | hge
    · have h1 : 2 ^ k < 2 ^ w := Nat.pow_lt_pow_right (by decide) hlt
      have h2 : 1 < 2 ^ w := Nat.lt_of_le_of_lt (Nat.one_le_two_pow) h1
      have h3 : 1 ≤ 2 ^ k := Nat.one_le_two_pow
      have hl : (1#w <<< k).toNat = 2 ^ k := by
        rw [BitVec.toNat_shiftLeft, BitVec.toNat_ofNat, Nat.mod_eq_of_lt h2, Nat.one_shiftLeft, Nat.mod_eq_of_lt h1]
      have h1w : (1#w).toNat = 1 := by rw [BitVec.toNat_ofNat, Nat.mod_eq_of_lt h2]
      unfold lowMask
      rw [BitVec.toNat_sub_of_le (by rw [BitVec.le_def, hl, h1w]; exact h3), hl, h1w]
    · obtain rfl : k = w := by omega
      have hz : 1#k <<< k = 0#k := by
        apply BitVec.eq_of_toNat_eq
        rw [BitVec.toNat_shiftLeft, Nat.shiftLeft_eq]
        simp
      unfold lowMask
      rw [hz, BitVec.toNat_sub]
      rcases Nat.eq_zero_or_pos k with h0 | hpos
      · subst h0; rfl
      · have h2 : 1 < 2 ^ k := Nat.one_lt_two_pow (by omega)
        rw [BitVec.toNat_ofNat, Nat.mod_eq_of_lt h2]
        simp only [BitVec.toNat_ofNat, Nat.zero_mod, Nat.add_zero]
        exact Nat.mod_eq_of_lt (by omega)
  rw [BitVec.toNat_and, hmask, Nat.and_two_pow_sub_one_eq_mod]

/-- `t = ACC * 32 + g`. -/
theorem packWire_toNat (acc : BitVec 7) (g : Group) : (packWire acc g).toNat = acc.toNat * 32 + g.toNat := by
  have ha : acc.toNat < 128 := acc.isLt
  have hg : g.toNat < 32 := g.isLt
  unfold packWire
  rw [BitVec.toNat_or, BitVec.toNat_shiftLeft, BitVec.toNat_setWidth, BitVec.toNat_setWidth]
  rw [Nat.mod_eq_of_lt (show acc.toNat < 2 ^ 12 by omega), Nat.mod_eq_of_lt (show g.toNat < 2 ^ 12 by omega),
    Nat.mod_eq_of_lt (by rw [Nat.shiftLeft_eq]; omega), ← Nat.shiftLeft_add_eq_or_of_lt (by simpa using hg),
    Nat.shiftLeft_eq]

/-- `nb = NBITS + 5`. -/
theorem bitsWire_toNat (nbits : BitVec 3) : (bitsWire nbits).toNat = nbits.toNat + 5 := by
  revert nbits; decide

/-- BCNT after one more byte is `min(k + 1, 127)`. -/
theorem bcntNext_toNat (k : BitVec 7) : (bcntNext k).toNat = min (k.toNat + 1) 127 := by
  revert k; decide

/-- A PUSH that produces no byte: every bit stays buffered. -/
theorem pushGroup_short (g : Group) (s : State) (h : s.nbits.toNat < 3) :
    pushGroup g s =
      { s with last := g, ne := true, acc := (packWire s.acc g).setWidth 7, nbits := (bitsWire s.nbits).setWidth 3 } := by
  have hb := bitsWire_toNat s.nbits
  unfold pushGroup
  dsimp only
  rw [if_neg (by omega)]

/-- A PUSH that produces a byte: the top eight buffered bits leave, `NBITS - 3` bits stay. -/
theorem pushGroup_long (g : Group) (s : State) (h : 3 ≤ s.nbits.toNat) :
    pushGroup g s =
      emit ((packWire s.acc g >>> (s.nbits.toNat - 3)).setWidth 8)
        { s with
          last := g
          ne := true
          acc := (packWire s.acc g &&& lowMask 12 (s.nbits.toNat - 3)).setWidth 7
          nbits := BitVec.ofNat 3 (s.nbits.toNat - 3) } := by
  have hb := bitsWire_toNat s.nbits
  have hr : (bitsWire s.nbits).toNat - 8 = s.nbits.toNat - 3 := by omega
  unfold pushGroup
  dsimp only
  rw [if_pos (by omega), hr]

/-- NBITS after a PUSH. -/
theorem pushGroup_nbits_toNat (g : Group) (s : State) :
    (pushGroup g s).nbits.toNat = (s.nbits.toNat + 5) % 8 := by
  have hn : s.nbits.toNat < 8 := s.nbits.isLt
  rcases Nat.lt_or_ge s.nbits.toNat 3 with h | h
  · rw [pushGroup_short g s h]
    simp only [BitVec.toNat_setWidth, bitsWire_toNat]
  · rw [pushGroup_long g s h]
    simp only [emit_nbits, BitVec.toNat_ofNat]
    omega

/-- ACC after a PUSH from a packed accumulator: the bits that stay buffered. -/
theorem pushGroup_acc_toNat (g : Group) (s : State) (hp : s.acc.toNat < 2 ^ s.nbits.toNat) :
    (pushGroup g s).acc.toNat = (s.acc.toNat * 32 + g.toNat) % 2 ^ ((s.nbits.toNat + 5) % 8) := by
  have hn : s.nbits.toNat < 8 := s.nbits.isLt
  have hg : g.toNat < 32 := g.isLt
  rcases Nat.lt_or_ge s.nbits.toNat 3 with h | h
  · rw [pushGroup_short g s h]
    simp only [BitVec.toNat_setWidth, packWire_toNat]
    have h7 : 2 ^ s.nbits.toNat ≤ 2 ^ 2 := Nat.pow_le_pow_right (by decide) (by omega)
    have hb : 2 ^ (s.nbits.toNat + 5) = 2 ^ s.nbits.toNat * 32 := by rw [Nat.pow_add]
    rw [Nat.mod_eq_of_lt (show s.nbits.toNat + 5 < 8 by omega), Nat.mod_eq_of_lt (by omega), Nat.mod_eq_of_lt (by omega)]
  · rw [pushGroup_long g s h]
    simp only [emit_acc, BitVec.toNat_setWidth]
    rw [and_lowMask_toNat _ _ (by omega), packWire_toNat, show (s.nbits.toNat + 5) % 8 = s.nbits.toNat - 3 by omega]
    have h4 : 2 ^ (s.nbits.toNat - 3) ≤ 2 ^ 4 := Nat.pow_le_pow_right (by decide) (by omega)
    have hlt := Nat.mod_lt (s.acc.toNat * 32 + g.toNat) (Nat.two_pow_pos (s.nbits.toNat - 3))
    exact Nat.mod_eq_of_lt (by omega)

/-- The byte a PUSH produces, as a number. -/
theorem emittedByte_toNat (g : Group) (s : State) (h : 3 ≤ s.nbits.toNat) (hp : s.acc.toNat < 2 ^ s.nbits.toNat) :
    ((packWire s.acc g >>> (s.nbits.toNat - 3)).setWidth 8 : Byte).toNat =
      (s.acc.toNat * 32 + g.toNat) / 2 ^ (s.nbits.toNat - 3) := by
  have hg : g.toNat < 32 := g.isLt
  rw [BitVec.toNat_setWidth, BitVec.toNat_ushiftRight, packWire_toNat, Nat.shiftRight_eq_div_pow]
  apply Nat.mod_eq_of_lt
  rw [Nat.div_lt_iff_lt_mul (Nat.two_pow_pos _)]
  have h8 : 2 ^ s.nbits.toNat = 2 ^ (s.nbits.toNat - 3) * 8 := by
    rw [show (8 : Nat) = 2 ^ 3 from rfl, ← Nat.pow_add, Nat.sub_add_cancel h]
  omega

end Sys2Proof.Machine
end

