-- ==== Sys2Proof/Laws/PerInstr.lean ====
section
/-!
SUPPORT. A fact about every command as syntax: the word of a well-formed command satisfies `w & mask = match` for its own
row of `spec/opcode_table.json` (30_encoding R47, R49). One lemma per constructor.
-/

namespace Sys2Proof.Laws.TableRow

/-- The `mask` and `match` of the row a command stands in (`spec/opcode_table.json`). -/
def maskMatch : Instr → CommandWord × CommandWord
  | .nop => (0xFF, 0x00)
  | .start => (0xFF, 0x20)
  | .push _ => (0xE0, 0x40)
  | .finish => (0xFF, 0x60)
  | .reserved0101 => (0xFF, 0x01)
  | .reserved0203 _ => (0xFE, 0x02)
  | .reserved0407 _ => (0xFC, 0x04)
  | .reserved080F _ => (0xF8, 0x08)
  | .reserved101F _ => (0xF0, 0x10)
  | .reserved2121 => (0xFF, 0x21)
  | .reserved2223 _ => (0xFE, 0x22)
  | .reserved2427 _ => (0xFC, 0x24)
  | .reserved282F _ => (0xF8, 0x28)
  | .reserved303F _ => (0xF0, 0x30)
  | .reserved6161 => (0xFF, 0x61)
  | .reserved6263 _ => (0xFE, 0x62)
  | .reserved6467 _ => (0xFC, 0x64)
  | .reserved686F _ => (0xF8, 0x68)
  | .reserved707F _ => (0xF0, 0x70)
  | .reserved80FF _ _ => (0x80, 0x80)

/-- The word of a well-formed command selects the command's own row. -/
def Statement (i : Instr) : Prop :=
  i.wellFormed = true → encode i &&& (maskMatch i).1 = (maskMatch i).2

theorem nop : Statement .nop := by unfold Statement; decide
theorem start : Statement .start := by unfold Statement; decide
theorem push : ∀ g, Statement (.push g) := by unfold Statement; decide
theorem finish : Statement .finish := by unfold Statement; decide
theorem reserved0101 : Statement .reserved0101 := by unfold Statement; decide
theorem reserved0203 : ∀ arg, Statement (.reserved0203 arg) := by unfold Statement; decide
theorem reserved0407 : ∀ arg, Statement (.reserved0407 arg) := by unfold Statement; decide
theorem reserved080F : ∀ arg, Statement (.reserved080F arg) := by unfold Statement; decide
theorem reserved101F : ∀ arg, Statement (.reserved101F arg) := by unfold Statement; decide
theorem reserved2121 : Statement .reserved2121 := by unfold Statement; decide
theorem reserved2223 : ∀ arg, Statement (.reserved2223 arg) := by unfold Statement; decide
theorem reserved2427 : ∀ arg, Statement (.reserved2427 arg) := by unfold Statement; decide
theorem reserved282F : ∀ arg, Statement (.reserved282F arg) := by unfold Statement; decide
theorem reserved303F : ∀ arg, Statement (.reserved303F arg) := by unfold Statement; decide
theorem reserved6161 : Statement .reserved6161 := by unfold Statement; decide
theorem reserved6263 : ∀ arg, Statement (.reserved6263 arg) := by unfold Statement; decide
theorem reserved6467 : ∀ arg, Statement (.reserved6467 arg) := by unfold Statement; decide
theorem reserved686F : ∀ arg, Statement (.reserved686F arg) := by unfold Statement; decide
theorem reserved707F : ∀ arg, Statement (.reserved707F arg) := by unfold Statement; decide
theorem reserved80FF : ∀ op arg, Statement (.reserved80FF op arg) := by unfold Statement; decide

end Sys2Proof.Laws.TableRow
end

