-- ==== Sys2Proof/Laws/Pins.lean ====
section
/-!
SUPPORT. Commands do not look at the pins still to come, and PUSH keeps the canonical form of the buffer.
-/

namespace Sys2Proof.Machine

theorem pushGroup_withEdges (g : Group) (s : State) (r : List ClockEdge) :
    pushGroup g { s with edges := r } = { pushGroup g s with edges := r } := by
  rcases Nat.lt_or_ge s.nbits.toNat 3 with h | h
  · rw [pushGroup_short g { s with edges := r } h]; dsimp only; rw [pushGroup_short g s h]
  · rw [pushGroup_long g { s with edges := r } h]; dsimp only; rw [pushGroup_long g s h]
    unfold emit; dsimp only; split_ifs <;> rfl

theorem unlessFault_withEdges {f : State → State}
    (hf : ∀ s r, f { s with edges := r } = { f s with edges := r }) (s : State) (r : List ClockEdge) :
    unlessFault f { s with edges := r } = { unlessFault f s with edges := r } := by
  obtain ⟨acc, nbits, last, ne, bcnt, ver, seq, err, hash, wasReset, edges⟩ := s
  cases seq <;> first | exact hf _ r | rfl

theorem onlyActive_withEdges {f : State → State}
    (hf : ∀ s r, f { s with edges := r } = { f s with edges := r }) (s : State) (r : List ClockEdge) :
    onlyActive f { s with edges := r } = { onlyActive f s with edges := r } := by
  obtain ⟨acc, nbits, last, ne, bcnt, ver, seq, err, hash, wasReset, edges⟩ := s
  cases seq <;> first | exact hf _ r | rfl

/-- A command does the same whatever edges are still to come. -/
theorem exec_withEdges {i : Instr} {s t : State} (r : List ClockEdge) (h : exec i s = .next t) :
    exec i { s with edges := r } = .next { t with edges := r } := by
  cases i <;> injection h with h <;> subst h <;>
    show Host.Outcome.next _ = Host.Outcome.next _ <;> congr 1
  case push g => exact onlyActive_withEdges (pushGroup_withEdges g) _ _
  case finish => exact onlyActive_withEdges (f := closePayload) (fun _ _ => rfl) _ _
  case start => exact unlessFault_withEdges (f := startTransaction) (fun _ _ => rfl) _ _
  all_goals exact unlessFault_withEdges (f := raiseFault .fCmd) (fun _ _ => rfl) _ _

/-- A PUSH keeps the canonical form of the buffer. -/
theorem pushGroup_hash_wf (g : Group) (s : State) (h : Memory.wf s.hash = true) :
    Memory.wf (pushGroup g s).hash = true := by
  rcases Nat.lt_or_ge s.nbits.toNat 3 with h3 | h3
  · rw [pushGroup_short g s h3]; exact h
  · rw [pushGroup_long g s h3, emit_hash]
    split_ifs with hk
    · exact hashWrite_wf _ _ _ (by have := hk.2; dsimp only at this ⊢; omega) h
    · exact h

end Sys2Proof.Machine
end

