-- ==== Sys2Proof/Laws/Repack.lean ====
section
/-!
SUPPORT. The loop of `repack`: what one turn does at (5, 8), and what draining keeps for any positive width
(40_bitpacker R60, R61).
-/

namespace Sys2Proof.Machine

/-- Masking an unbounded number is the remainder by `2^k`. -/
theorem and_natMask (x k : Nat) : x &&& natMask k = x % 2 ^ k := by
  rw [natMask, Nat.one_shiftLeft, Nat.and_two_pow_sub_one_eq_mod]

/-- Nothing is drained while fewer than `toBits` bits are buffered. -/
theorem drain_of_lt {toBits : Nat} (fuel : Nat) (p : Packing toBits) (h : p.bits < toBits) : drain fuel p = p := by
  cases fuel with
  | zero => rfl
  | succ fuel => rw [drain, if_neg (by omega)]

/-- The loop over one more group. -/
theorem packLoop_snoc {fromBits toBits : Nat} (gs : List (BitVec fromBits)) (g : BitVec fromBits) :
    packLoop fromBits toBits (gs ++ [g]) = packTurn (packLoop fromBits toBits gs) g := by
  simp [packLoop]

/-- A turn at (5, 8) that gives no byte. -/
theorem packTurn_short (p : Packing 8) (g : BitVec 5) (h : p.bits < 3) :
    packTurn p g = { p with acc := p.acc * 32 + g.toNat, bits := p.bits + 5 } := by
  unfold packTurn
  dsimp only
  rw [drain_of_lt _ _ (by dsimp only; omega), ← Nat.shiftLeft_add_eq_or_of_lt g.isLt, Nat.shiftLeft_eq]

/-- A turn at (5, 8) that gives one byte; there is never a second (40_bitpacker R68). -/
theorem packTurn_long (p : Packing 8) (g : BitVec 5) (h : 3 ≤ p.bits) (h8 : p.bits < 8) :
    packTurn p g =
      { acc := p.acc * 32 + g.toNat
        bits := p.bits - 3
        out := p.out ++ [BitVec.ofNat 8 ((p.acc * 32 + g.toNat) / 2 ^ (p.bits - 3))] } := by
  obtain ⟨k, hk⟩ : ∃ k, p.bits = k + 3 := ⟨p.bits - 3, by omega⟩
  unfold packTurn
  dsimp only
  rw [hk, show k + 3 + 5 = (k + 7) + 1 by omega, drain, if_pos (by dsimp only; omega),
    drain_of_lt _ _ (by dsimp only; omega)]
  dsimp only
  rw [← Nat.shiftLeft_add_eq_or_of_lt g.isLt, Nat.shiftLeft_eq, Nat.shiftRight_eq_div_pow]
  simp

end Sys2Proof.Machine
end

