-- ==== Sys2Proof/Tests/Slice0.lean ====
section
/-!
SUPPORT. Tests of the model against words, vectors and worked examples of `spec/` (95_test_vectors, 30_encoding), the smoke
test of the well-formedness checks, and for every statement with hypotheses a witness that meets them.
-/

namespace Sys2Proof.Tests

open Sys2Proof Sys2Proof.Machine

/-! ### Decoding: every constructor, from a word written out from 30_encoding R46, R47, R49 -/

theorem test_decode_nop : decode 0b000_00000 = .nop := by decide
theorem test_decode_start : decode 0b001_00000 = .start := by decide
theorem test_decode_push : decode 0b010_10110 = .push 22 := by decide
theorem test_decode_end : decode 0b011_00000 = .finish := by decide
theorem test_decode_reserved0101 : decode 0b000_00001 = .reserved0101 := by decide
theorem test_decode_reserved0203 : decode 0b000_00011 = .reserved0203 3 := by decide
theorem test_decode_reserved0407 : decode 0b000_00100 = .reserved0407 4 := by decide
theorem test_decode_reserved080F : decode 0b000_01111 = .reserved080F 15 := by decide
theorem test_decode_reserved101F : decode 0b000_10000 = .reserved101F 16 := by decide
theorem test_decode_reserved2121 : decode 0b001_00001 = .reserved2121 := by decide
theorem test_decode_reserved2223 : decode 0b001_00010 = .reserved2223 2 := by decide
theorem test_decode_reserved2427 : decode 0b001_00111 = .reserved2427 7 := by decide
theorem test_decode_reserved282F : decode 0b001_01000 = .reserved282F 8 := by decide
theorem test_decode_reserved303F : decode 0b001_11111 = .reserved303F 31 := by decide
theorem test_decode_reserved6161 : decode 0b011_00001 = .reserved6161 := by decide
theorem test_decode_reserved6263 : decode 0b011_00010 = .reserved6263 2 := by decide
theorem test_decode_reserved6467 : decode 0b011_00101 = .reserved6467 5 := by decide
theorem test_decode_reserved686F : decode 0b011_01001 = .reserved686F 9 := by decide
theorem test_decode_reserved707F : decode 0b011_10001 = .reserved707F 17 := by decide
theorem test_decode_reserved80FF : decode 0b100_11010 = .reserved80FF 4 26 := by decide

/-- 30_encoding R55: `PUSH 22` is the word `56`. -/
theorem test_encode_push : encode (.push 22) = 0x56 := by decide
/-- 30_encoding R54: nothing but 8 bits is a command word. -/
theorem test_table_word : decodeTableWord 8 0x56 = some (.push 22) ∧ decodeTableWord 16 0x56 = none ∧
    decodeTableWord 8 0x156 = none := by decide

/-! ### Ill-formed terms, one for each check of `Instr.wellFormed` (both ends of the row's range) -/

theorem test_illformed_0203 : (Instr.reserved0203 1).wellFormed = false ∧ (Instr.reserved0203 4).wellFormed = false := by
  decide
theorem test_illformed_0407 : (Instr.reserved0407 3).wellFormed = false ∧ (Instr.reserved0407 8).wellFormed = false := by
  decide
theorem test_illformed_080F : (Instr.reserved080F 7).wellFormed = false ∧ (Instr.reserved080F 16).wellFormed = false := by
  decide
theorem test_illformed_101F : (Instr.reserved101F 15).wellFormed = false := by decide
theorem test_illformed_2223 : (Instr.reserved2223 0).wellFormed = false ∧ (Instr.reserved2223 4).wellFormed = false := by
  decide
theorem test_illformed_2427 : (Instr.reserved2427 3).wellFormed = false ∧ (Instr.reserved2427 8).wellFormed = false := by
  decide
theorem test_illformed_282F : (Instr.reserved282F 7).wellFormed = false ∧ (Instr.reserved282F 16).wellFormed = false := by
  decide
theorem test_illformed_303F : (Instr.reserved303F 15).wellFormed = false := by decide
theorem test_illformed_6263 : (Instr.reserved6263 1).wellFormed = false ∧ (Instr.reserved6263 31).wellFormed = false := by
  decide
theorem test_illformed_6467 : (Instr.reserved6467 3).wellFormed = false ∧ (Instr.reserved6467 8).wellFormed = false := by
  decide
theorem test_illformed_686F : (Instr.reserved686F 7).wellFormed = false ∧ (Instr.reserved686F 16).wellFormed = false := by
  decide
theorem test_illformed_707F : (Instr.reserved707F 15).wellFormed = false := by decide
theorem test_illformed_80FF : (Instr.reserved80FF 3 0).wellFormed = false ∧ (Instr.reserved80FF 4 0).wellFormed = true := by
  decide

/-! ### Single steps -/

/-- An ACTIVE state with the given packing registers. -/
def packing (acc : BitVec 7) (nbits : BitVec 3) (bcnt : BitVec 7) : State :=
  { State.reset with seq := .active, acc := acc, nbits := nbits, ne := true, bcnt := bcnt }

/-- The registers that END finds, in ACTIVE. -/
def closing (nbits : BitVec 3) (last : Group) (ne : Bool) (bcnt : BitVec 7) (ver : Byte) : State :=
  { State.reset with seq := .active, nbits := nbits, last := last, ne := ne, bcnt := bcnt, ver := ver }

/-- What a predicate says of the next state, false where there is none. -/
def after (o : Host.Outcome State Fault Refusal) (p : State → Bool) : Bool :=
  match o with
  | .next t => p t
  | .fault _ => false
  | .refused _ => false

/-- 43_control R105, the rule's own example. -/
theorem test_nop_keeps_packing :
    after (exec .nop (packing 0x1E 5 0)) (fun t => t.acc = 0x1E ∧ t.nbits = 5 ∧ t.seq = .active) = true := by decide

/-- 95 section 7, words `20 45 20`: START in ACTIVE abandons; group 5 is forgotten. -/
theorem test_start_abandons :
    after (exec .start (packing 5 5 0)) (fun t => t.acc = 0 ∧ t.nbits = 0 ∧ t.ne = false ∧ t.seq = .active) = true := by
  decide

/-- 95 section 3, the second `PUSH 17`: `t = 0xA31`, byte `A3` to HASH[0], ACC `01`, NBITS 4, BCNT 2. -/
theorem test_push_to_hash :
    after (exec (.push 17) (packing 0x51 7 1))
      (fun t => t.acc = 0x01 ∧ t.nbits = 4 ∧ t.bcnt = 2 ∧ t.last = 17 ∧ hashRead t.hash 0 = some 0xA3) = true := by decide

/-- 95 section 3, single steps: at BCNT = 126 the byte is dropped and BCNT becomes 127. -/
theorem test_push_drops_and_saturates :
    after (exec (.push 0) (packing 0x7F 7 126))
      (fun t => t.acc = 0 ∧ t.nbits = 4 ∧ t.bcnt = 127 ∧ t.hash = []) = true ∧
    after (exec (.push 0) (packing 0x0F 4 127)) (fun t => t.nbits = 1 ∧ t.bcnt = 127) = true := by decide

/-- 95 section 4, V10: 34 zero groups succeed. -/
theorem test_end_success :
    after (exec .finish (closing 2 0 true 21 0)) (fun t => t.seq = .done ∧ t.err = .eNone) = true := by decide

/-- 95 section 5: V18 reports 3 and not 4, V22 reports 4 and not 6, V20 reports 5 and not 6, V3 reports 2 and not 3, V1
reports 1, V21 reports 6. -/
theorem test_end_priority :
    verdict (closing 2 1 true 21 0x80) = .ePadNonzero ∧ verdict (closing 2 0 true 21 0x90) = .eReserved ∧
    verdict (closing 0 0 true 20 0x10) = .eLength ∧ verdict (closing 5 31 true 0 0) = .ePadSize ∧
    verdict (closing 0 0 false 0 0) = .eEmpty ∧ verdict (closing 2 0 true 21 0x78) = .eType := by decide

/-- 95 section 7: a word of each reserved row, as the first command after reset, gives STATE 3 and ERR 8. -/
theorem test_reserved_words_fault :
    ([0x01, 0x02, 0x07, 0x08, 0x1F, 0x21, 0x23, 0x24, 0x2F, 0x3F, 0x61, 0x62, 0x67, 0x68, 0x7F, 0x80, 0xFF] : List Nat).all
      (fun w => after (step (State.reset.withFetchWord 8 w))
        (fun t => t.outputs.state = 3 ∧ t.outputs.err = 8)) = true := by
  decide

/-- 95 section 7, words `20 60 41`: PUSH in DONE overwrites ERR 1 by 9. -/
theorem test_push_in_done_faults :
    after (exec (.push 1) { State.reset with seq := .done, err := .eEmpty }) (fun t => t.seq = .fault ∧ t.err = .fSeq) =
      true := by decide

/-- 95 section 7, words `E0 20`: START is ignored in FAULT. -/
theorem test_fault_is_sticky :
    after (step ({ State.reset with seq := .fault, err := .fCmd }.withFetchWord 8 0x20))
      (fun t => t.seq = .fault ∧ t.err = .fCmd) = true := by decide

/-- 95 section 7, last lines: `rst = 1` with `cmd = 20` is a reset; `cmd = 9A` without `cmd_valid` changes nothing. -/
theorem test_edges :
    after (step { packing 5 5 0 with edges := [⟨true, true, 0x20⟩] }) (fun t => t.seq = .idle ∧ t.acc = 0) = true ∧
    after (step { packing 5 5 0 with edges := [⟨false, false, 0x9A⟩] }) (fun t => t = packing 5 5 0) = true := by decide

/-! ### Ports and reference functions -/

/-- The registers after 95 V10, a successful transaction of 20 zero bytes, with the last byte changed to `01` (V13). -/
def shown : State :=
  { State.reset with
    nbits := 2, last := 4, ne := true, bcnt := 21, seq := .done
    hash := (List.range 20).map fun i => (i, if i = 19 then 1 else 0) }

/-- 95 V13 and section 8: HASH[19] reads `01`, addresses 20 and 63 are behind the gate, `hsize = 20`. -/
theorem test_read_port :
    rdData shown 19 = 1 ∧ rdData shown 20 = 0 ∧ rdData shown 63 = 0 ∧ shown.outputs.hsize = 20 ∧ shown.outputs.ok = 1 ∧
    rdData { shown with err := .ePadNonzero } 19 = 0 ∧ rdData { shown with seq := .active } 19 = 0 := by decide

/-- 95 section 6, rows `08`, `04`, `17`, `88`, `FF`. -/
theorem test_decoder_port :
    (vbType 0x08 = 1 ∧ vbSize 0x08 = 20 ∧ vbErr 0x08 = 0) ∧ (vbSsel 0x04 = 4 ∧ vbSize 0x04 = 40) ∧
    (vbErr 0x17 = 2 ∧ vbSize 0x17 = 64) ∧ (vbErr 0x88 = 1 ∧ vbType 0x88 = 0 ∧ vbTsel 0x88 = 1) ∧
    (vbRsv 0xFF = 1 ∧ vbTsel 0xFF = 15 ∧ vbSize 0xFF = 64) := by decide

/-- 95 section 6: `venc`. -/
theorem test_venc : venc .pubKeyHash 40 = some 0x04 ∧ venc .scriptHash 64 = some 0x0F ∧ venc .pubKeyHash 36 = none := by
  decide

/-- 95 section 2.1: rows `[30, 22, 17, 16, 0]`, `[0]` and `[31, 30]`. -/
theorem test_repack_decode :
    (repackPayload [30, 22, 17, 16, 0]).toOption = some [0xF5, 0xA3, 0x00] ∧ (repackPayload [0]).toOption = some [] ∧
    (repackPayload [31, 30]).toOption = none := by decide

/-- 95 sections 2.2 and 2.3: rows `[31, 31]` at (5, 8, true) and `F5 A3 1C` at (8, 5, true). -/
theorem test_repack_pad :
    (repack 5 8 true [31, 31]).toOption = some [0xFF, 0xC0] ∧
    (repack 8 5 true [0xF5, 0xA3, 0x1C]).toOption = some [30, 22, 17, 17, 24] := by decide

/-- 95 section 4: V1, V3, V5, V6, V9, V8. -/
theorem test_outcome :
    outcome [] = .eEmpty ∧ outcome [31] = .ePadSize ∧ outcome [0, 1] = .ePadNonzero ∧ outcome [16, 0] = .eReserved ∧
    outcome [0, 0, 0, 0] = .eLength ∧ outcome [0, 0, 0] = .ePadSize := by decide

/-- 95 section 4, V10 and V19. -/
theorem test_outcome_long :
    outcome (List.replicate 34 0) = .eNone ∧ outcome (2 :: List.replicate 33 0) = .eType := by decide

/-- 95 section 9, P1: `ADDRESS PKH` and twenty zero bytes is START, 34 times PUSH 0, END. -/
theorem test_address_expansion :
    (addressCommands .pubKeyHash (List.replicate 20 0)).toOption =
      some ([.start] ++ List.replicate 34 (.push 0) ++ [.finish]) := by decide

/-- 30_encoding R56 with 95 section 2.3: the text `PUSHBYTES 0xF5, 0xA3`. -/
theorem test_assemble_pushbytes :
    (assembleLine "PUSHBYTES 0xF5, 0xA3".toList).toOption = some [0x5E, 0x56, 0x51, 0x50] := by decide

/-- 30_encoding R55, R56: `PAYLOAD` without operands is START, END; ADDRESS with one byte is an error. -/
theorem test_assemble_pseudo :
    (assemble ["PAYLOAD".toList, "; nothing".toList, "PAYLOAD 1".toList]).toOption = some [0x20, 0x60, 0x20, 0x41, 0x60] ∧
    (assembleLine "ADDRESS SH, 0x01".toList).toOption = none := by decide

/-! ### Witnesses: the hypotheses of the statements are met -/

theorem wit_ResetEdgeRestoresRegisters :
    ∃ s : State, s.edges = ⟨true, true, 0x20⟩ :: [] ∧ (⟨true, true, 0x20⟩ : ClockEdge).rst = true ∧ s.seq = .fault :=
  ⟨{ State.reset with seq := .fault, edges := [⟨true, true, 0x20⟩] }, rfl, rfl, rfl⟩

theorem wit_OutputsAfterResetAreZero :
    ∃ s : State, s.edges = ⟨true, false, 0⟩ :: [] ∧ (⟨true, false, 0⟩ : ClockEdge).rst = true ∧ s.outputs.ok = 1 :=
  ⟨{ shown with edges := [⟨true, false, 0⟩] }, rfl, rfl, by decide⟩

theorem wit_IdleEdgesChangeNothing :
    ∃ (s : State) (idle rest : List ClockEdge), s.edges = idle ++ rest ∧ idle.length = 2 ∧ rest.length = 1 ∧
      ∀ e ∈ idle, e.rst = false ∧ e.cmdValid = false :=
  ⟨{ packing 5 5 0 with edges := [⟨false, false, 0x9A⟩, ⟨false, false, 0⟩, ⟨false, true, 0x60⟩] },
    [⟨false, false, 0x9A⟩, ⟨false, false, 0⟩], [⟨false, true, 0x60⟩], rfl, rfl, rfl, by decide⟩

theorem wit_StepRunsDecodedCommand :
    ∃ s t : State, s.edges = ⟨false, true, 0x56⟩ :: [] ∧ s.wasReset = true ∧ t.edges = [] ∧ decode 0x56 = .push 22 :=
  ⟨{ packing 5 5 0 with edges := [⟨false, true, 0x56⟩] }, State.reset, rfl, rfl, rfl, by decide⟩

theorem wit_CommandBeforeResetIsRefused :
    (∃ s : State, s.edges = ⟨false, true, 0x20⟩ :: [] ∧ s.wasReset = false) ∧
    ∃ s : State, s.edges = ⟨true, true, 0x20⟩ :: [] ∧ s.wasReset = false :=
  ⟨⟨{ State.reset with wasReset := false, edges := [⟨false, true, 0x20⟩] }, rfl, rfl⟩,
    { State.reset with wasReset := false, edges := [⟨true, true, 0x20⟩] }, rfl, rfl⟩

theorem wit_EveryStateAcceptsACommand : (packing 5 5 0).wasReset = true := rfl

theorem wit_StartBeginsATransaction :
    ({ State.reset with seq := .fault } : State).seq = .fault ∧ shown.seq ≠ .fault := by decide

/-- PUSH: the states out of sequence; the boundary NBITS 2 and 3; and BCNT at 0, 1, 64 and 65 (95 section 3). -/
theorem wit_PushPacksOneGroup :
    State.reset.seq = .idle ∧ shown.seq = .done ∧ ({ State.reset with seq := .fault } : State).seq = .fault ∧
    ([packing 0x03 2 6, packing 0x07 3 0, packing 0x07 3 1, packing 0x07 3 64, packing 0x07 3 65]).all
      (fun s => s.seq = .active ∧ s.acc.toNat < 2 ^ s.nbits.toNat) = true ∧
    (packing 0x03 2 6).nbits.toNat + 5 < 8 ∧ 8 ≤ (packing 0x07 3 0).nbits.toNat + 5 ∧
    (packing 0x07 3 0).bcnt.toNat = 0 ∧ 1 ≤ (packing 0x07 3 64).bcnt.toNat ∧ (packing 0x07 3 64).bcnt.toNat ≤ 64 ∧
    64 < (packing 0x07 3 65).bcnt.toNat := by decide

/-- The frame of PUSH: a step that stores at `BCNT - 1 = 63` leaves address 62; one that does not store; one in FAULT. -/
theorem wit_PushFrame :
    after (exec (.push 31) (packing 0x07 3 64)) (fun t => hashRead t.hash 63 = some 0xFF) = true ∧
    ¬ (62 = (packing 0x07 3 64).bcnt.toNat - 1) ∧ (packing 0x07 3 64).bcnt.toNat ≠ 0 ∧
    after (exec (.push 31) (packing 0 2 0)) (fun t => t.bcnt = 0) = true ∧
    after (exec (.push 31) State.reset) (fun t => t.seq = .fault) = true ∧
    after (exec (.push 31) { State.reset with seq := .fault }) (fun t => t = { State.reset with seq := .fault }) = true := by
  decide

theorem wit_AnyNumberOfPushesIsCarriedOut : (packing 5 5 0).seq = .active := rfl

theorem wit_EndGivesTheVerdict :
    State.reset.seq = .idle ∧ shown.seq = .done ∧ ({ State.reset with seq := .fault } : State).seq = .fault ∧
    (closing 2 0 true 21 0).seq = .active := by decide

/-- The check's number at both ends: the first check and the sixth. -/
theorem wit_FirstFailingCheckDecides :
    (closing 0 0 false 0 0).seq = .active ∧ (failingChecks (closing 0 0 false 0 0))[0]? = some true ∧
    (failingChecks (closing 2 0 true 21 0x78))[5]? = some true ∧ (failingChecks (closing 2 0 true 21 0))[5]? = some false := by
  decide

theorem wit_ErrorEntryHidesTheResults :
    (closing 2 1 true 21 0).seq = .active ∧ true ∈ failingChecks (closing 2 1 true 21 0) := by decide

/-- The registers after START and two zero groups (95 V4) satisfy the invariant. -/
theorem wit_two_groups_inv : (closing 2 0 true 1 0).Inv where
  hashWf := by decide
  datapath _ := ⟨by decide, by decide, by decide, by decide, by decide, by decide, by decide⟩
  sequencer _ := ⟨by decide, by decide, by decide, by decide⟩

theorem wit_ChecksRelyOnTheOnesBefore :
    (closing 2 0 true 1 0).Inv ∧ (closing 2 0 true 1 0).wasReset = true ∧ failsNonEmpty (closing 2 0 true 1 0) = false ∧
    failsAllowedPadding (closing 2 0 true 1 0) = false ∧ failsZeroPadding (closing 2 0 true 1 0) = false :=
  ⟨wit_two_groups_inv, by decide⟩

/-- A reserved command of each row, well formed; the state outside FAULT and in it; the words at the ends of the ranges. -/
theorem wit_ReservedWordRaisesCommandFault :
    (([.reserved0101, .reserved0203 2, .reserved0407 4, .reserved080F 8, .reserved101F 16, .reserved2121, .reserved2223 2,
      .reserved2427 4, .reserved282F 8, .reserved303F 16, .reserved6161, .reserved6263 2, .reserved6467 4, .reserved686F 8,
      .reserved707F 16, .reserved80FF 4 0] : List Instr).all fun i => commandKind i = .reserved ∧ i.wellFormed = true) =
      true ∧
    State.reset.seq ≠ .fault ∧ ({ State.reset with seq := .fault } : State).seq = .fault ∧
    128 ≤ (0x80 : CommandWord).toNat ∧ (0x7F : CommandWord).toNat / 32 ≠ 2 ∧ (0x7F : CommandWord).toNat % 32 ≠ 0 := by decide

theorem wit_SequencerFollowsItsTable :
    State.reset.seq = .idle ∧ shown.seq = .done ∧ (raiseFault .fCmd shown).seq = .fault ∧ commandKind .nop = .nop ∧
    commandKind .start = .start ∧ commandKind (.push 0) = .push ∧ commandKind .finish = .finish ∧
    commandKind .reserved0101 = .reserved ∧ (∃ s : State, s.edges = ⟨true, false, 0⟩ :: [] ∧ s.seq = .active) :=
  ⟨rfl, rfl, rfl, rfl, rfl, rfl, rfl, rfl, { packing 5 5 0 with edges := [⟨true, false, 0⟩] }, rfl, rfl⟩

theorem wit_FaultIsLeftByResetOnly :
    after (step { State.reset with seq := .fault, edges := [⟨false, true, 0x20⟩] }) (fun t => t.seq = .fault) = true ∧
    after (step { State.reset with seq := .fault, edges := [⟨true, true, 0x20⟩] }) (fun t => t.seq = .idle) = true := by
  decide

theorem wit_FaultsAreProtocolBreaches : State.reset.seq ≠ .fault := by decide

/-- A breach over a good result. -/
theorem wit_FaultEntryHidesTheResults :
    legalIn shown.seq (commandKind (.push 0)) = false ∧ legalIn State.reset.seq (commandKind (.reserved80FF 4 0)) = false ∧
    shown.seq ≠ .fault ∧ shown.outputs.ok = 1 := by decide

/-- Codes 1 and 6, the ends of the range. -/
theorem wit_OnlyEndRaisesErrors :
    after (exec .finish (closing 0 0 false 0 0)) (fun t => t.err ≠ .eNone ∧ t.err.code.toNat = 1) = true ∧
    after (exec .finish (closing 2 0 true 21 0x78)) (fun t => t.err ≠ .eNone ∧ t.err.code.toNat = 6) = true := by decide

theorem wit_FrameOfTheOtherCommands :
    commandKind .nop ≠ .push ∧ commandKind .start ≠ .push ∧ commandKind .finish ≠ .push ∧ commandKind .finish ≠ .start ∧
    commandKind .reserved0101 ≠ .push ∧ after (exec .finish (closing 2 0 true 21 0)) (fun t => t.bcnt = 21) = true ∧
    after (exec .start shown) (fun t => hashRead t.hash 19 = some 1) = true := by decide

/-- A step that changes a byte of HASH: at the last index, 63. -/
theorem wit_OnlyPushWritesHash :
    after (step { packing 0x07 3 64 with edges := [⟨false, true, 0x5F⟩] })
      (fun t => hashRead t.hash 63 ≠ hashRead (packing 0x07 3 64).hash 63) = true := by decide

theorem wit_shown_inv : shown.Inv where
  hashWf := by decide
  datapath _ := ⟨by decide, by decide, by decide, by decide, by decide, by decide, by decide⟩
  sequencer _ := ⟨by decide, by decide, by decide, by decide⟩

/-- The gate at its boundary: address 19 is open, address 20 is not. -/
theorem wit_ReadPortShowsWrittenBytesOnly :
    shown.Inv ∧ shown.wasReset = true ∧ shown.seq = .done ∧ shown.err = .eNone ∧
    (19 : ReadAddr).toNat < (hsize shown.ver).toNat ∧ ¬ (20 : ReadAddr).toNat < (hsize shown.ver).toNat :=
  ⟨wit_shown_inv, by decide⟩

theorem wit_OutputsAreGated : shown.outputs.ok = 1 ∧ State.reset.outputs.ok = 0 := by decide

theorem wit_SuccessMeansAValidVersionByte :
    shown.Inv ∧ shown.wasReset = true ∧ shown.seq = .done ∧ shown.err = .eNone :=
  ⟨wit_shown_inv, by decide⟩

theorem wit_DecodeEncodeRoundTrip :
    (Instr.push 31).wellFormed = true ∧ (Instr.reserved0203 3).wellFormed = true ∧
    (Instr.reserved80FF 7 31).wellFormed = true := by decide

/-- Each clause of the decode procedure at a word on its boundary. -/
theorem wit_DecodeProcedure :
    (0x5F : CommandWord).toNat / 32 = 2 ∧ (0x00 : CommandWord).toNat / 32 = 0 ∧ (0x20 : CommandWord).toNat / 32 = 1 ∧
    (0x60 : CommandWord).toNat / 32 = 3 ∧ (0x60 : CommandWord).toNat % 32 = 0 ∧
    ((0x80 : CommandWord).toNat / 32 ≠ 2 ∧
      ¬ ((0x80 : CommandWord).toNat % 32 = 0 ∧ (0x80 : CommandWord).toNat / 32 ∈ [0, 1, 3])) ∧
    ((0x61 : CommandWord).toNat / 32 ≠ 2 ∧
      ¬ ((0x61 : CommandWord).toNat % 32 = 0 ∧ (0x61 : CommandWord).toNat / 32 ∈ [0, 1, 3])) := by decide

theorem wit_HashSizeIsABijection : hsize 0x05 = hsize 0x7D := by decide

/-- The ends of the four classes. -/
theorem wit_VersionByteDecode :
    128 ≤ (0x80 : Byte).toNat ∧ 16 ≤ (0x10 : Byte).toNat ∧ (0x7F : Byte).toNat < 128 ∧ 8 ≤ (0x08 : Byte).toNat ∧
    (0x0F : Byte).toNat < 16 ∧ (0x07 : Byte).toNat < 8 := by decide

theorem wit_VersionByteEncode :
    20 ∈ [20, 24, 28, 32, 40, 48, 56, 64] ∧ 64 ∈ [20, 24, 28, 32, 40, 48, 56, 64] ∧
    36 ∉ [20, 24, 28, 32, 40, 48, 56, 64] := by decide

theorem wit_VersionByteRoundTrip :
    64 ∈ [20, 24, 28, 32, 40, 48, 56, 64] ∧ (vdec 0x0F).toOption = some (.scriptHash, 64) := by decide

theorem wit_EveryStepKeepsTheInvariant :
    (closing 2 0 true 1 0).Inv ∧ after (step (closing 2 0 true 1 0)) (fun t => t = closing 2 0 true 1 0) = true :=
  ⟨wit_two_groups_inv, by decide⟩

theorem wit_RepackCounts :
    0 < 5 ∧ 0 < 8 ∧ (repack 5 8 false [31, 28]).toOption = some [0xFF] ∧ (repack 5 8 true [31, 31]).toOption.isSome = true := by
  decide

/-- Both sides of the converse: a payload that comes back, and one with two nonzero bits left. -/
theorem wit_RepackInverse :
    ([31, 28] : List Group).length * 5 % 8 < 5 ∧ (28 : Group).toNat % 2 ^ 2 = 0 ∧ (31 : Group).toNat % 2 ^ 2 ≠ 0 := by decide

theorem wit_OutcomeByNumberOfGroups :
    ([] : List Group).length = 0 ∧ ([0] : List Group).length % 8 ∈ [1, 3, 6] ∧
    2 ≤ ([0, 0] : List Group).length ∧ ([0, 0] : List Group).length % 8 ∈ [0, 2, 4, 5, 7] ∧
    ([0, 0] : List Group).length ∉ [34, 40, 47, 53, 66, 79, 92, 104] ∧
    outcome (List.replicate 34 0) = .eNone := by decide

/-- Two groups: the leftover clause applies, and byte 0 is there; four groups: byte 1 is too. -/
theorem wit_RegistersFollowTheStream :
    State.reset.seq ≠ .fault ∧ 1 ≤ ([31, 28] : List Group).length ∧ (packLoop 5 8 ([31, 28] : List Group)).bits ≤ 5 ∧
    (packLoop 5 8 ([1, 0, 0, 16] : List Group)).out[0 + 1]? = some 0x01 := by decide

/-- A stream with a NOP and an idle edge inside a transaction of two groups. -/
theorem wit_TransactionLaw :
    ∃ (s : State) (stream rest : List ClockEdge), s.wasReset = true ∧ s.seq ≠ .fault ∧ s.edges = stream ++ rest ∧
      (∀ e ∈ stream, e.rst = false) ∧ commandsOf stream = payloadCommands [0, 1] ∧ stream.length = 6 :=
  ⟨{ shown with
      edges := [⟨false, true, 0x20⟩, ⟨false, true, 0x40⟩, ⟨false, true, 0x00⟩, ⟨false, false, 0x9A⟩, ⟨false, true, 0x41⟩,
        ⟨false, true, 0x60⟩] },
    [⟨false, true, 0x20⟩, ⟨false, true, 0x40⟩, ⟨false, true, 0x00⟩, ⟨false, false, 0x9A⟩, ⟨false, true, 0x41⟩,
      ⟨false, true, 0x60⟩], [], by decide⟩

/-- The law's two conclusions are both met: a payload that succeeds and one that does not. -/
theorem wit_TransactionLaw_outcomes :
    outcome (List.replicate 34 0) = .eNone ∧ outcome [0, 1] ≠ .eNone := by decide

theorem wit_TransactionsAreIndependent : State.reset.seq ≠ .fault ∧ shown.seq ≠ .fault := by decide

theorem wit_AddressRoundTrip :
    (List.replicate 20 (0 : Byte)).length ∈ [20, 24, 28, 32, 40, 48, 56, 64] ∧ shown.seq ≠ .fault := by decide

theorem wit_PseudoInstructionExpansions :
    ([0] : List Byte).length ∉ [20, 24, 28, 32, 40, 48, 56, 64] ∧
    (List.replicate 64 (0 : Byte)).length ∈ [20, 24, 28, 32, 40, 48, 56, 64] := by decide

end Sys2Proof.Tests
end

/-! ### PUSH, register by register (40_bitpacker R65, R67) -/

section
namespace Sys2Proof.Machine

/-- The byte that `PUSH g` produces where at least three bits are buffered: the top eight of `(ACC << 5) | g`. -/
def pushedByte (g : Group) (s : State) : Byte := (packWire s.acc g >>> (s.nbits.toNat - 3)).setWidth 8

theorem pushedByte_toNat (g : Group) (s : State) (h : 3 ≤ s.nbits.toNat) (hp : s.acc.toNat < 2 ^ s.nbits.toNat) :
    (pushedByte g s).toNat = (s.acc.toNat * 32 + g.toNat) / 2 ^ (s.nbits.toNat - 3) :=
  emittedByte_toNat g s h hp

/-- BCNT counts the byte, if there is one. -/
theorem pushGroup_bcnt_toNat (g : Group) (s : State) :
    (pushGroup g s).bcnt.toNat = if 3 ≤ s.nbits.toNat then min (s.bcnt.toNat + 1) 127 else s.bcnt.toNat := by
  split_ifs with h
  · rw [pushGroup_long g s h, emit_bcnt, bcntNext_toNat]
  · rw [pushGroup_short g s (by omega)]

/-- Byte 0 goes to VER. -/
theorem pushGroup_ver (g : Group) (s : State) :
    (pushGroup g s).ver = if 3 ≤ s.nbits.toNat ∧ s.bcnt = 0 then pushedByte g s else s.ver := by
  rcases Nat.lt_or_ge s.nbits.toNat 3 with h | h
  · rw [pushGroup_short g s h, if_neg (by omega)]
  · rw [pushGroup_long g s h, emit_ver]
    simp only [h, true_and, pushedByte]

/-- Bytes 1 to 64 go to `HASH[BCNT - 1]`, and no other byte of HASH changes. -/
theorem hashRead_pushGroup (g : Group) (s : State) (a : Nat) :
    hashRead (pushGroup g s).hash a =
      if 3 ≤ s.nbits.toNat ∧ s.bcnt.toNat = a + 1 ∧ a < 64 then some (pushedByte g s) else hashRead s.hash a := by
  rcases Nat.lt_or_ge s.nbits.toNat 3 with h | h
  · rw [pushGroup_short g s h, if_neg (by omega)]
  · rw [pushGroup_long g s h, emit_hash]
    dsimp only
    split_ifs with hstore hhere hhere
    · rw [hashRead_write, if_pos (by omega), pushedByte]
    · rw [hashRead_write, if_neg (by omega)]
    · omega
    · rfl

end Sys2Proof.Machine
end

/-! ### What one command and one clock edge can do -/

section
namespace Sys2Proof.Machine

/-- A property of the state is kept by a command that FAULT ignores, if its effect keeps it. -/
theorem unlessFault_keeps {P : State → Prop} {f : State → State} {s : State} (hs : P s)
    (hf : s.seq ≠ .fault → P (f s)) : P (unlessFault f s) := by
  obtain ⟨hne, heq⟩ | ⟨-, heq⟩ := unlessFault_cases f s
  · rw [heq]; exact hf hne
  · rw [heq]; exact hs

/-- A property of the state is kept by a command legal in ACTIVE only, if its effect and the fault F_SEQ keep it. -/
theorem onlyActive_keeps {P : State → Prop} {f : State → State} {s : State} (hs : P s)
    (hf : s.seq = .active → P (f s)) (hfault : P (raiseFault .fSeq s)) : P (onlyActive f s) := by
  obtain ⟨hact, heq⟩ | ⟨-, -, heq⟩ | ⟨-, heq⟩ := onlyActive_cases f s
  · rw [heq]; exact hf hact
  · rw [heq]; exact hfault
  · rw [heq]; exact hs

/-- Everything a step that answers a next state can do: pass an edge by, reset, or carry out a command in a block that has
been reset. -/
theorem step_cases {s t : State} (h : step s = .next t) :
    (∃ rest, t = { s with edges := rest }) ∨
    (∃ rest, t = resetRegisters { s with edges := rest }) ∨
    (∃ i rest, s.wasReset = true ∧ exec i { s with edges := rest } = .next t) := by
  cases hedges : s.edges with
  | nil =>
    rw [step_nil hedges] at h
    injection h with h
    exact .inl ⟨s.edges, h.symm⟩
  | cons e rest =>
    rw [step_cons hedges] at h
    cases haction : e.action with
    | reset =>
      simp only [haction] at h
      injection h with h
      exact .inr (.inl ⟨rest, h.symm⟩)
    | command w =>
      simp only [haction] at h
      split_ifs at h with hreset
      exact .inr (.inr ⟨decode w, rest, hreset, h⟩)
    | idle =>
      simp only [haction] at h
      injection h with h
      exact .inl ⟨rest, h.symm⟩

end Sys2Proof.Machine
end

/-! ### The invariant of the datapath (10_state R21) -/

section
namespace Sys2Proof.Machine

/-- Registers that are all 0 hang together: reset and START leave them so. -/
theorem Datapath.of_zero {s : State} (hacc : s.acc = 0) (hnbits : s.nbits = 0) (hlast : s.last = 0)
    (hne : s.ne = false) (hbcnt : s.bcnt = 0) (hver : s.ver = 0) : Datapath s where
  packed := by simp [hacc]
  counted := by simp [hbcnt, hnbits]
  nonEmpty := by simp [hne, hbcnt, hnbits]
  lastEmpty _ := hlast
  verEmpty _ := hver
  leftover _ := by simp [hacc, hlast]
  written := by simp [hbcnt]

/-- STATE, ERR and the pins are no part of the datapath. -/
theorem Datapath.withControl {s : State} (h : Datapath s) (q : Seq) (e : Err) (rest : List ClockEdge) :
    Datapath { s with seq := q, err := e, edges := rest } :=
  ⟨h.packed, h.counted, h.nonEmpty, h.lastEmpty, h.verEmpty, h.leftover, h.written⟩

/-- Up to five bits of a group, widened to ACC's width, as a number. -/
theorem eq_lowBits_iff (acc : BitVec 7) (g : Group) {n : Nat} (h5 : n ≤ 5) :
    acc = (g &&& lowMask 5 n).setWidth 7 ↔ acc.toNat = g.toNat % 2 ^ n := by
  have hg : g.toNat < 32 := g.isLt
  have hle : g.toNat % 2 ^ n ≤ g.toNat := Nat.mod_le _ _
  rw [← BitVec.toNat_inj, BitVec.toNat_setWidth, and_lowMask_toNat _ _ h5,
    Nat.mod_eq_of_lt (show g.toNat % 2 ^ n < 2 ^ 7 by omega)]

/-- The low `m` bits after a group is shifted in do not depend on bits above the low `m - 5` before it. -/
theorem shiftIn_mod (a g : Nat) {n m : Nat} (h : m ≤ n + 5) :
    (a % 2 ^ n * 32 + g) % 2 ^ m = (a * 32 + g) % 2 ^ m := by
  have hdvd : 2 ^ m ∣ 2 ^ n * 32 := by
    rw [show 2 ^ n * 32 = 2 ^ (n + 5) from (Nat.pow_add 2 n 5).symm]
    exact pow_dvd_pow 2 h
  have hmod : a % 2 ^ n * 32 ≡ a * 32 [MOD 2 ^ n * 32] := (Nat.mod_modEq a (2 ^ n)).mul_right' 32
  exact (hmod.of_dvd hdvd).add_right g

/-- A PUSH keeps the datapath's registers together. -/
theorem Datapath.pushGroup {s : State} (h : Datapath s) (g : Group) : Datapath (pushGroup g s) := by
  have hn := pushGroup_nbits_toNat g s
  have hb := pushGroup_bcnt_toNat g s
  have hn8 : s.nbits.toNat < 8 := s.nbits.isLt
  refine ⟨?packed, ?counted, ?nonEmpty, ?lastEmpty, ?verEmpty, ?leftover, ?written⟩
  case packed =>
    rw [hn, pushGroup_acc_toNat g s h.packed]
    exact Nat.mod_lt _ (Nat.two_pow_pos _)
  case counted =>
    intro hlt
    split_ifs at hb with h3
    · have hcounted := h.counted (by omega)
      rw [hb, hn, show min (s.bcnt.toNat + 1) 127 = s.bcnt.toNat + 1 by omega,
        show (s.nbits.toNat + 5) % 8 = s.nbits.toNat - 3 by omega]
      omega
    · have hcounted := h.counted (by omega)
      rw [hb, hn, Nat.mod_eq_of_lt (by omega)]
      omega
  case nonEmpty =>
    suffices ¬ ((Machine.pushGroup g s).bcnt = 0 ∧ (Machine.pushGroup g s).nbits = 0) by simpa
    rintro ⟨hb0, hn0⟩
    have hb' : (Machine.pushGroup g s).bcnt.toNat = 0 := by rw [hb0]; rfl
    have hn' : (Machine.pushGroup g s).nbits.toNat = 0 := by rw [hn0]; rfl
    split_ifs at hb <;> omega
  case lastEmpty => simp
  case verEmpty =>
    intro hb0
    have hb' : (Machine.pushGroup g s).bcnt.toNat = 0 := by rw [hb0]; rfl
    split_ifs at hb with h3
    · omega
    · have hs0 : s.bcnt = 0 := BitVec.eq_of_toNat_eq (hb.symm.trans hb')
      rw [pushGroup_ver, if_neg (by omega), h.verEmpty hs0]
  case leftover =>
    intro h5
    rw [pushGroup_last, eq_lowBits_iff _ _ h5, pushGroup_acc_toNat g s h.packed, ← hn, ← shiftIn_mod _ _ (n := 0) h5]
    simp [Nat.mod_one]
  case written =>
    intro i hi hcount
    rw [hashRead_pushGroup]
    split_ifs with hhere
    · rfl
    · refine h.written i hi ?_
      split_ifs at hb <;> omega

end Sys2Proof.Machine
end

/-! ### Every step keeps the invariant (10_state R17, R18, R21) -/

section
namespace Sys2Proof.Machine

/-- In FAULT only the code of ERR is constrained. -/
theorem Sequencer.raiseFault {s : State} {e : Err} (he : e = .fCmd ∨ e = .fSeq) : Sequencer (raiseFault e s) :=
  ⟨by simp, by simp, by simp, fun _ => he⟩

/-- In ACTIVE only ERR is constrained. -/
theorem Sequencer.of_active {s : State} (hseq : s.seq = .active) (herr : s.err = .eNone) : Sequencer s :=
  ⟨by simp [hseq], fun _ => herr, by simp [hseq], by simp [hseq]⟩

/-- END leaves the verdict on the registers in ERR, and the registers as they were. -/
theorem Sequencer.closePayload (s : State) : Sequencer (closePayload s) :=
  ⟨by simp, by simp, fun _ => verdict_congr rfl rfl rfl rfl rfl, by simp⟩

/-- The pins are no part of the invariant. -/
theorem State.Inv.withEdges {s : State} (h : s.Inv) (rest : List ClockEdge) : ({ s with edges := rest } : State).Inv where
  hashWf := h.hashWf
  datapath hreset := (h.datapath hreset).withControl s.seq s.err rest
  sequencer hreset :=
    have hs := h.sequencer hreset
    ⟨hs.idle, hs.active, hs.done, hs.fault⟩

/-- A reset keeps HASH and clears the rest. -/
theorem State.Inv.resetRegisters {s : State} (h : s.Inv) : (resetRegisters s).Inv where
  hashWf := h.hashWf
  datapath _ := .of_zero rfl rfl rfl rfl rfl rfl
  sequencer _ := ⟨by simp, by simp, by simp, by simp⟩

theorem State.Inv.startTransaction {s : State} (h : s.Inv) : (startTransaction s).Inv where
  hashWf := h.hashWf
  datapath _ := .of_zero rfl rfl rfl rfl rfl rfl
  sequencer _ := .of_active rfl rfl

theorem State.Inv.raiseFault {s : State} (h : s.Inv) {e : Err} (he : e = .fCmd ∨ e = .fSeq) : (raiseFault e s).Inv where
  hashWf := h.hashWf
  datapath hreset := (h.datapath hreset).withControl .fault e s.edges
  sequencer _ := .raiseFault he

theorem State.Inv.closePayload {s : State} (h : s.Inv) : (closePayload s).Inv where
  hashWf := h.hashWf
  datapath hreset := (h.datapath hreset).withControl .done (verdict s) s.edges
  sequencer _ := .closePayload s

theorem State.Inv.pushGroup {s : State} (h : s.Inv) (hact : s.seq = .active) (g : Group) : (pushGroup g s).Inv where
  hashWf := pushGroup_hash_wf g s h.hashWf
  datapath hreset := (h.datapath (by simpa using hreset)).pushGroup g
  sequencer hreset :=
    .of_active (by simpa using hact) (by simpa using (h.sequencer (by simpa using hreset)).active hact)

/-- Every command keeps the invariant. -/
theorem State.Inv.exec {i : Instr} {s t : State} (h : s.Inv) (hexec : exec i s = .next t) : t.Inv := by
  obtain ⟨-, heq⟩ | ⟨-, heq⟩ | ⟨g, -, heq⟩ | ⟨-, heq⟩ | heq := exec_cases i s
  all_goals obtain rfl := Host.Outcome.next.inj (heq.symm.trans hexec)
  · exact h
  · exact unlessFault_keeps h fun _ => h.startTransaction
  · exact onlyActive_keeps h (fun hact => h.pushGroup hact g) (h.raiseFault (.inr rfl))
  · exact onlyActive_keeps h (fun _ => h.closePayload) (h.raiseFault (.inr rfl))
  · exact unlessFault_keeps h fun _ => h.raiseFault (.inl rfl)

/-- Settles O38: an edge passed by, a reset and every command keep the invariant. -/
theorem everyStepKeepsTheInvariant : Obligations.EveryStepKeepsTheInvariant := by
  intro s t h hstep
  obtain ⟨rest, rfl⟩ | ⟨rest, rfl⟩ | ⟨i, rest, -, hexec⟩ := step_cases hstep
  · exact h.withEdges rest
  · exact (h.withEdges rest).resetRegisters
  · exact (h.withEdges rest).exec hexec

end Sys2Proof.Machine
end

/-! ### The registers along a stream of groups (10_state R21, 40_bitpacker R63) -/

section
namespace Sys2Proof.Machine

/-- What the loop of `repack` at (5, 8) counts: bits left, and bytes given. -/
theorem packLoop_counts (gs : List Group) :
    (packLoop 5 8 gs).bits = gs.length * 5 % 8 ∧ (packLoop 5 8 gs).out.length = gs.length * 5 / 8 := by
  induction gs using List.reverseRecOn with
  | nil => exact ⟨rfl, rfl⟩
  | append_singleton gs g ih =>
    obtain ⟨hbits, hlen⟩ := ih
    rw [packLoop_snoc, List.length_append, List.length_singleton]
    rcases Nat.lt_or_ge (packLoop 5 8 gs).bits 3 with h | h
    · rw [packTurn_short _ g h]
      constructor <;> dsimp only <;> omega
    · rw [packTurn_long _ g h (by omega)]
      constructor
      · dsimp only; omega
      · rw [List.length_append, List.length_singleton]; omega

/-- The byte of `repack`'s unbounded accumulator is the one of ACC, which keeps the buffered bits only. -/
theorem ofNat_shiftedIn_eq_pushedByte (g : Group) (s : State) (a : Nat) (h3 : 3 ≤ s.nbits.toNat)
    (hacc : s.acc.toNat = a % 2 ^ s.nbits.toNat) :
    BitVec.ofNat 8 ((a * 32 + g.toNat) / 2 ^ (s.nbits.toNat - 3)) = pushedByte g s := by
  have hp : s.acc.toNat < 2 ^ s.nbits.toNat := hacc ▸ Nat.mod_lt _ (Nat.two_pow_pos _)
  apply BitVec.eq_of_toNat_eq
  rw [← Nat.mod_eq_of_lt (pushedByte g s).isLt, pushedByte_toNat g s h3 hp, hacc, BitVec.toNat_ofNat,
    ← Nat.mod_mul_right_div_self, ← Nat.mod_mul_right_div_self, ← Nat.pow_add,
    show s.nbits.toNat - 3 + 8 = s.nbits.toNat + 5 by omega, shiftIn_mod _ _ le_rfl]

/-- The registers are those of the loop of `repack` at (5, 8) over the groups pushed since START. -/
structure FollowsStream (gs : List Group) (s : State) : Prop where
  datapath : Datapath s
  seq : s.seq = .active
  err : s.err = .eNone
  nbits : s.nbits.toNat = (packLoop 5 8 gs).bits
  acc : s.acc.toNat = (packLoop 5 8 gs).acc % 2 ^ s.nbits.toNat
  bcnt : s.bcnt.toNat = min (packLoop 5 8 gs).out.length 127
  ne : s.ne = !gs.isEmpty
  last : s.last = gs.getLast?.getD 0
  ver : s.ver = (packLoop 5 8 gs).out.head?.getD 0
  hash : ∀ i, i < 64 → ∀ b, (packLoop 5 8 gs).out[i + 1]? = some b → hashRead s.hash i = some b

/-- After START no group has been pushed. -/
theorem FollowsStream.startTransaction (s : State) : FollowsStream [] (startTransaction s) where
  datapath := .of_zero rfl rfl rfl rfl rfl rfl
  seq := rfl
  err := rfl
  nbits := rfl
  acc := rfl
  bcnt := rfl
  ne := rfl
  last := rfl
  ver := rfl
  hash _ _ _ h := nomatch h

/-- What one more group does to the loop, read from the registers: it gives the byte that PUSH produces, or none. -/
theorem FollowsStream.packLoop_snoc {gs : List Group} {s : State} (h : FollowsStream gs s) (g : Group) :
    packLoop 5 8 (gs ++ [g]) =
      { acc := (packLoop 5 8 gs).acc * 32 + g.toNat
        bits := (pushGroup g s).nbits.toNat
        out := (packLoop 5 8 gs).out ++ if 3 ≤ s.nbits.toNat then [pushedByte g s] else [] } := by
  have hn8 : s.nbits.toNat < 8 := s.nbits.isLt
  rw [Machine.packLoop_snoc, pushGroup_nbits_toNat]
  split_ifs with h3
  · rw [packTurn_long _ g (h.nbits ▸ h3) (h.nbits ▸ hn8), ← h.nbits, ofNat_shiftedIn_eq_pushedByte g s _ h3 h.acc,
      show (s.nbits.toNat + 5) % 8 = s.nbits.toNat - 3 by omega]
  · rw [packTurn_short _ g (by rw [← h.nbits]; omega), ← h.nbits, List.append_nil, Nat.mod_eq_of_lt (by omega)]

/-- PUSH keeps the registers and the loop together. -/
theorem FollowsStream.pushGroup {gs : List Group} {s : State} (h : FollowsStream gs s) (g : Group) :
    FollowsStream (gs ++ [g]) (pushGroup g s) := by
  have hn8 : s.nbits.toNat < 8 := s.nbits.isLt
  have hturn := h.packLoop_snoc g
  have hcount := h.bcnt
  refine
    { datapath := h.datapath.pushGroup g
      seq := by rw [pushGroup_seq, h.seq]
      err := by rw [pushGroup_err, h.err]
      nbits := by rw [hturn]
      acc := ?acc
      bcnt := ?bcnt
      ne := by simp
      last := by simp
      ver := ?ver
      hash := ?hash }
  case acc =>
    rw [hturn, pushGroup_acc_toNat g s h.datapath.packed, h.acc, ← pushGroup_nbits_toNat]
    exact shiftIn_mod _ _ (by rw [pushGroup_nbits_toNat]; omega)
  case bcnt =>
    rw [hturn, pushGroup_bcnt_toNat, hcount, List.length_append]
    split_ifs with h3
    · rw [List.length_singleton]; omega
    · rw [List.length_nil, Nat.add_zero]
  case ver =>
    rw [hturn, pushGroup_ver, h.ver]
    have hempty : s.bcnt = 0 ↔ (packLoop 5 8 gs).out = [] := by
      rw [← BitVec.toNat_inj, hcount, ← List.length_eq_zero_iff]
      simp
    simp only [hempty]
    cases (packLoop 5 8 gs).out with
    | nil => by_cases h3 : 3 ≤ s.nbits.toNat <;> simp [h3]
    | cons c out => simp
  case hash =>
    intro i hi b hb
    rw [hturn] at hb
    rw [hashRead_pushGroup]
    rcases Nat.lt_or_ge (i + 1) (packLoop 5 8 gs).out.length with hold | hnew
    · rw [List.getElem?_append_left hold] at hb
      rw [if_neg (by omega), h.hash i hi b hb]
    · rw [List.getElem?_append_right hnew] at hb
      split_ifs at hb with h3
      · obtain ⟨hhere, rfl⟩ : i + 1 - (packLoop 5 8 gs).out.length = 0 ∧ pushedByte g s = b := by
          simpa [List.getElem?_singleton] using hb
        rw [if_pos (by omega)]
      · simp at hb

/-- Any list of PUSH commands is carried out, and the registers follow. -/
theorem FollowsStream.runPushes (more : List Group) {gs : List Group} {s : State} (h : FollowsStream gs s) :
    ∃ t, runCommands (more.map .push) s = .next t ∧ FollowsStream (gs ++ more) t := by
  induction more generalizing gs s with
  | nil => exact ⟨s, rfl, by simpa using h⟩
  | cons g more ih =>
    obtain ⟨t, hrun, ht⟩ := ih (h.pushGroup g)
    refine ⟨t, ?_, by simpa using ht⟩
    rw [← hrun, ← onlyActive_of_active (f := Machine.pushGroup g) h.seq]
    rfl

/-- Settles O42: START leaves the registers of the empty loop, and every PUSH is one turn of it. -/
theorem registersFollowTheStream : Obligations.RegistersFollowTheStream := by
  intro gs s hseq
  obtain ⟨t, hrun, h⟩ := (FollowsStream.startTransaction s).runPushes gs
  rw [List.nil_append] at h
  obtain ⟨hbits, hlen⟩ := packLoop_counts gs
  refine ⟨t, _, ?_, rfl, h.seq, h.err, h.nbits, h.nbits.trans hbits, ?_, h.bcnt, hlen ▸ h.bcnt, h.ne, h.last,
    fun _ h5 => (eq_lowBits_iff _ _ h5).1 (h.datapath.leftover h5), h.ver, fun i b hi => h.hash i (by omega) b⟩
  · rw [← hrun, ← unlessFault_of_ne (f := startTransaction) hseq]
    rfl
  · rw [Packing.leftover, and_natMask, ← h.nbits, h.acc]

end Sys2Proof.Machine
end

/-! ### Which commands change what (10_state section 1, 20_memory R32) -/

section
namespace Sys2Proof.Machine

/-- From `s` to `t` nothing is written but ERR and STATE. -/
def ControlOnly (s t : State) : Prop := ∃ e q, t = takeEvent e q s

theorem ControlOnly.refl (s : State) : ControlOnly s s := ⟨s.err, s.seq, rfl⟩

theorem ControlOnly.raiseFault (e : Err) (s : State) : ControlOnly s (raiseFault e s) := ⟨e, .fault, rfl⟩

theorem ControlOnly.closePayload (s : State) : ControlOnly s (closePayload s) := ⟨verdict s, .done, rfl⟩

/-- A command legal in ACTIVE only writes ERR and STATE at most where it is not carried out. -/
theorem onlyActive_controlOnly {f : State → State} {s : State} (h : s.seq ≠ .active) :
    ControlOnly s (onlyActive f s) :=
  onlyActive_keeps (.refl s) (fun hact => absurd hact h) (.raiseFault _ s)

/-- A command other than PUSH begins a transaction, or writes ERR and STATE at most. -/
theorem exec_of_not_push {i : Instr} {s t : State} (hpush : commandKind i ≠ .push) (h : exec i s = .next t) :
    (i = .start ∧ t = startTransaction s) ∨ ControlOnly s t := by
  obtain ⟨-, heq⟩ | ⟨rfl, heq⟩ | ⟨g, rfl, -⟩ | ⟨-, heq⟩ | heq := exec_cases i s
  case inr.inr.inl => exact absurd rfl hpush
  all_goals obtain rfl := Host.Outcome.next.inj (heq.symm.trans h)
  · exact .inr (.refl s)
  · obtain ⟨-, heq⟩ | ⟨-, heq⟩ := unlessFault_cases startTransaction s
    · exact .inl ⟨rfl, heq⟩
    · exact .inr (heq.symm ▸ .refl s)
  · exact .inr (onlyActive_keeps (.refl s) (fun _ => .closePayload s) (.raiseFault _ s))
  · exact .inr (unlessFault_keeps (.refl s) fun _ => .raiseFault _ s)

/-- Settles O22: START clears the datapath, and NOP, END and the reserved rows write ERR and STATE at most. -/
theorem frameOfTheOtherCommands : Obligations.FrameOfTheOtherCommands := by
  intro i s t hpush hexec
  obtain ⟨rfl, rfl⟩ | ⟨e, q, rfl⟩ := exec_of_not_push hpush hexec
  · exact ⟨fun _ => rfl, rfl, rfl, fun hstart => absurd rfl hstart⟩
  · exact ⟨fun _ => rfl, rfl, rfl, fun _ => ⟨rfl, rfl, rfl, rfl, rfl, rfl⟩⟩

/-- Settles O10: in ACTIVE the registers are those of `pushGroup`; elsewhere ERR and STATE are written at most. -/
theorem pushFrame : Obligations.PushFrame := by
  intro g s t hexec
  obtain rfl : onlyActive (pushGroup g) s = t := Host.Outcome.next.inj hexec
  by_cases hact : s.seq = .active
  · have hbcnt0 : s.bcnt.toNat = 0 ↔ s.bcnt = 0 := by rw [← BitVec.toNat_inj]; rfl
    simp only [onlyActive_of_active hact, hact, true_and]
    refine ⟨by simp, by simp, by simp [hact], fun hver => ?ver, fun hshort => ?bcnt, fun a ha => ?hash, by simp, by simp⟩
    case ver => rw [pushGroup_ver, if_neg (by rwa [← hbcnt0])]
    case bcnt => exact BitVec.eq_of_toNat_eq (by rw [pushGroup_bcnt_toNat, if_neg hshort])
    case hash => rw [hashRead_pushGroup, if_neg (by omega)]
  · obtain ⟨e, q, heq⟩ := onlyActive_controlOnly (f := pushGroup g) hact
    have hfault : s.seq = .fault → takeEvent e q s = s := fun h => heq ▸ onlyActive_of_fault h
    rw [heq]
    exact ⟨rfl, rfl, fun h => absurd h hact, fun _ => rfl, fun _ => rfl, fun _ _ => rfl, fun _ => ⟨rfl, rfl, rfl, rfl⟩,
      hfault⟩

end Sys2Proof.Machine
end

/-! ### Who writes HASH (20_memory R32) -/

section
namespace Sys2Proof.Machine

/-- Everything a step that answers a next state can do, with the edge it meets: pass the edge by, reset, or carry out the
word the edge carries. -/
theorem step_cases_edge {s t : State} (h : step s = .next t) :
    (t = { s with edges := s.edges.tail }) ∨
    ∃ e rest, s.edges = e :: rest ∧
      ((e.rst = true ∧ t = resetRegisters { s with edges := rest }) ∨
        (e.rst = false ∧ e.cmdValid = true ∧ s.wasReset = true ∧
          exec (decode e.cmd) { s with edges := rest } = .next t)) := by
  cases hedges : s.edges with
  | nil =>
    obtain rfl := Host.Outcome.next.inj ((step_nil hedges).symm.trans h)
    exact .inl (by rw [List.tail_nil, ← hedges])
  | cons e rest =>
    rw [step_cons hedges, ClockEdge.action] at h
    cases hrst : e.rst with
    | true =>
      simp only [hrst, if_true] at h
      exact .inr ⟨e, rest, rfl, .inl ⟨hrst, (Host.Outcome.next.inj h).symm⟩⟩
    | false =>
      cases hvalid : e.cmdValid with
      | true =>
        simp only [hrst, hvalid, Bool.false_eq_true, if_false, if_true] at h
        split_ifs at h with hreset
        exact .inr ⟨e, rest, rfl, .inr ⟨hrst, hvalid, hreset, h⟩⟩
      | false =>
        simp only [hrst, hvalid, Bool.false_eq_true, if_false] at h
        exact .inl (Host.Outcome.next.inj h).symm

theorem commandKind_eq_push_iff (i : Instr) : commandKind i = .push ↔ ∃ g, i = .push g := by
  cases i <;> simp [commandKind]

/-- A command that changes the byte of HASH at `a` is a PUSH in ACTIVE with `BCNT = a + 1`, and it changes no other. -/
theorem exec_changes_hash {i : Instr} {s t : State} {a : Nat} (h : exec i s = .next t)
    (hne : hashRead t.hash a ≠ hashRead s.hash a) :
    (∃ g, i = .push g) ∧ s.seq = .active ∧ 1 ≤ s.bcnt.toNat ∧ s.bcnt.toNat ≤ 64 ∧ a = s.bcnt.toNat - 1 ∧
      ∀ x, x ≠ a → hashRead t.hash x = hashRead s.hash x := by
  by_cases hkind : commandKind i = .push
  · obtain ⟨g, rfl⟩ := (commandKind_eq_push_iff i).1 hkind
    obtain ⟨-, -, -, -, -, hframe, -⟩ := pushFrame g s t h
    obtain ⟨hact, -, hlo, hhi, ha⟩ := not_not.1 fun hn => hne (hframe a hn)
    exact ⟨⟨g, rfl⟩, hact, hlo, hhi, ha, fun x hx => hframe x fun hn => hx (by omega)⟩
  · exact absurd ((frameOfTheOtherCommands i s t hkind h).1 a) hne

/-- Settles O23: idle and reset edges keep HASH, so the edge carries a command, and the command is a PUSH. -/
theorem onlyPushWritesHash : Obligations.OnlyPushWritesHash := by
  intro s t a hstep hne
  obtain rfl | ⟨e, rest, hedges, ⟨-, rfl⟩ | ⟨hrst, hvalid, -, hexec⟩⟩ := step_cases_edge hstep
  · exact absurd rfl hne
  · exact absurd rfl hne
  · obtain ⟨⟨g, hpush⟩, hwrite⟩ := exec_changes_hash hexec hne
    exact ⟨⟨e, rest, g, hedges, hrst, hvalid, hpush⟩, hwrite⟩

end Sys2Proof.Machine
end

/-! ### The output ports behind the gate `ok` (10_state R24, 20_memory R33) -/

section
namespace Sys2Proof.Machine

theorem wire_eq_one_iff (b : Bool) : wire b = 1 ↔ b = true := by cases b <;> decide

theorem wire_eq_zero_iff (b : Bool) : wire b = 0 ↔ b = false := by cases b <;> decide

theorem State.ok_iff (s : State) : s.ok = true ↔ s.seq = .done ∧ s.err = .eNone := by simp [State.ok]

/-- The read port with its gate open. -/
theorem rdData_of_open {s : State} {a : ReadAddr} (hok : s.ok = true) (ha : a.toNat < (hsize s.ver).toNat) :
    rdData s a = hashByte s a :=
  if_pos ⟨hok, ha⟩

/-- The read port with its gate closed. -/
theorem rdData_of_closed {s : State} {a : ReadAddr} (h : ¬ (s.ok = true ∧ a.toNat < (hsize s.ver).toNat)) :
    rdData s a = 0 :=
  if_neg h

/-- A byte that was written is what `HASH[a]` is. -/
theorem hashByte_of_written {s : State} {a : ReadAddr} {b : Byte} (h : hashRead s.hash a.toNat = some b) :
    hashByte s a = b := by
  rw [hashByte, h, Option.getD_some]

/-- The length check passes when the bytes after the version byte are as many as it says. -/
theorem failsDataLength_eq_false_iff (s : State) :
    failsDataLength s = false ↔ s.bcnt.toNat = (hsize s.ver).toNat + 1 := by
  simp only [failsDataLength, ne_eq, decide_not, Bool.not_eq_false', decide_eq_true_eq]
  omega

/-- After a success BCNT counts the version byte and a whole hash. -/
theorem Sequencer.bcnt_of_ok {s : State} (h : Sequencer s) (hok : s.ok = true) :
    s.bcnt.toNat = (hsize s.ver).toNat + 1 := by
  obtain ⟨hdone, herr⟩ := s.ok_iff.1 hok
  obtain ⟨-, -, -, -, hlength, -⟩ := (verdict_eNone_iff s).1 ((h.done hdone).symm.trans herr)
  exact (failsDataLength_eq_false_iff s).1 hlength

/-- Settles O24: a success passed the length check, so every address the gate lets through is below BCNT - 1. -/
theorem readPortShowsWrittenBytesOnly : Obligations.ReadPortShowsWrittenBytesOnly := by
  intro s a hinv hreset
  constructor
  · intro hdone herr ha
    have hok : s.ok = true := s.ok_iff.2 ⟨hdone, herr⟩
    have hcount := (hinv.sequencer hreset).bcnt_of_ok hok
    obtain ⟨b, hb⟩ := Option.isSome_iff_exists.1 ((hinv.datapath hreset).written a.toNat a.isLt (by omega))
    exact ⟨hcount, b, hb, (rdData_of_open hok ha).trans (hashByte_of_written hb)⟩
  · intro hclosed
    exact rdData_of_closed fun ⟨hok, ha⟩ => hclosed (by simpa [ha] using s.ok_iff.1 hok)

/-- Settles O25: the flags are the wires of their conditions, and `ok` opens the results or holds them at 0. -/
theorem outputsAreGated : Obligations.OutputsAreGated := by
  intro s a
  refine ⟨rfl, rfl, (wire_eq_one_iff _).trans decide_eq_true_iff, (wire_eq_one_iff _).trans decide_eq_true_iff,
    (wire_eq_one_iff _).trans s.ok_iff, fun hok => ?opened, fun hok => ?closed⟩
  case opened =>
    replace hok : s.ok = true := (wire_eq_one_iff _).1 hok
    have hatype : (s.ver.extractLsb' 3 1).toNat = s.ver.toNat / 8 % 2 := by
      rw [BitVec.extractLsb'_toNat, Nat.shiftRight_eq_div_pow]
    refine ⟨if_pos hok, (congrArg BitVec.toNat (if_pos hok)).trans hatype, if_pos hok, ?_⟩
    split_ifs with ha
    · exact rdData_of_open hok ha
    · exact rdData_of_closed fun hopen => ha hopen.2
  case closed =>
    have hnot : ¬ s.ok = true := Bool.not_eq_true _ ▸ (wire_eq_zero_iff _).1 hok
    exact ⟨if_neg hnot, if_neg hnot, if_neg hnot, rdData_of_closed fun hopen => hnot hopen.1⟩

end Sys2Proof.Machine
end

/-! ### The command word and its decoder (30_encoding R46, R47, R49, R57) -/

section
namespace Sys2Proof

open Sys2Proof.Machine (commandKind)

@[simp] theorem opField_commandWord (op : BitVec 3) (arg : BitVec 5) : opField (commandWord op arg) = op :=
  BitVec.extractLsb'_append_eq_left

@[simp] theorem argField_commandWord (op : BitVec 3) (arg : BitVec 5) : argField (commandWord op arg) = arg :=
  BitVec.extractLsb'_append_eq_right

/-- Every word is the word of its two fields. -/
theorem commandWord_fields (w : CommandWord) : commandWord (opField w) (argField w) = w :=
  BitVec.extractLsb'_append_extractLsb'

theorem toNat_commandWord (op : BitVec 3) (arg : BitVec 5) :
    (commandWord op arg).toNat = op.toNat * 32 + arg.toNat := by
  rw [commandWord, BitVec.toNat_append, ← Nat.shiftLeft_add_eq_or_of_lt arg.isLt, Nat.shiftLeft_eq]

@[simp] theorem fieldIn_iff {w lo hi : Nat} {x : BitVec w} :
    fieldIn lo hi x = true ↔ lo ≤ x.toNat ∧ x.toNat ≤ hi := by
  simp [fieldIn]

/-! #### What the decoder answers -/

theorem decode_push (g : Group) : decode (commandWord 2 g) = .push g := by
  simp [decode]

/-- A word that spells none of the four commands is decoded by the table of the reserved rows. -/
theorem decode_reserved {op : BitVec 3} {arg : BitVec 5} (hpush : op ≠ 2) (hbare : ¬ (arg = 0 ∧ op ∈ [0, 1, 3])) :
    decode (commandWord op arg) = decodeReserved op arg := by
  have hnot : ∀ k ∈ ([0, 1, 3] : List (BitVec 3)), ¬ (arg = 0 ∧ op = k) := fun k hk ⟨harg, hop⟩ =>
    hbare ⟨harg, hop ▸ hk⟩
  simp only [decode, opField_commandWord, argField_commandWord, if_neg hpush, if_neg (hnot 0 (by decide)),
    if_neg (hnot 1 (by decide)), if_neg (hnot 3 (by decide))]

section
variable {r1 : Instr} {r2 r4 r8 r16 : BitVec 5 → Instr} {arg : BitVec 5}

theorem decodeReservedArg_row2 (h : fieldIn 2 3 arg = true) : decodeReservedArg r1 r2 r4 r8 r16 arg = r2 arg := by
  obtain ⟨hlo, hhi⟩ := fieldIn_iff.1 h
  rw [decodeReservedArg, if_neg (by omega), if_pos (by omega)]

theorem decodeReservedArg_row4 (h : fieldIn 4 7 arg = true) : decodeReservedArg r1 r2 r4 r8 r16 arg = r4 arg := by
  obtain ⟨hlo, hhi⟩ := fieldIn_iff.1 h
  rw [decodeReservedArg, if_neg (by omega), if_neg (by omega), if_pos (by omega)]

theorem decodeReservedArg_row8 (h : fieldIn 8 15 arg = true) : decodeReservedArg r1 r2 r4 r8 r16 arg = r8 arg := by
  obtain ⟨hlo, hhi⟩ := fieldIn_iff.1 h
  rw [decodeReservedArg, if_neg (by omega), if_neg (by omega), if_neg (by omega), if_pos (by omega)]

theorem decodeReservedArg_row16 (h : fieldIn 16 31 arg = true) :
    decodeReservedArg r1 r2 r4 r8 r16 arg = r16 arg := by
  obtain ⟨hlo, -⟩ := fieldIn_iff.1 h
  rw [decodeReservedArg, if_neg (by omega), if_neg (by omega), if_neg (by omega), if_neg (by omega)]

end

/-- The word of a reserved row whose range of `arg` leaves 0 out. -/
theorem decode_reserved_of_arg {op : BitVec 3} {arg : BitVec 5} {lo hi : Nat} (hpush : op ≠ 2)
    (harg : fieldIn (lo + 1) hi arg = true) : decode (commandWord op arg) = decodeReserved op arg :=
  decode_reserved hpush fun ⟨hzero, _⟩ => by
    subst hzero
    obtain ⟨hlo, -⟩ := fieldIn_iff.1 harg
    exact absurd hlo (by simp)

/-- The last row takes every `op` that no command has. -/
theorem decodeReserved_of_last {op : BitVec 3} {arg : BitVec 5} (h : fieldIn 4 7 op = true) :
    decodeReserved op arg = .reserved80FF op arg := by
  have hne : ∀ op : BitVec 3, fieldIn 4 7 op = true → op ≠ 0 ∧ op ≠ 1 ∧ op ≠ 3 := by decide
  obtain ⟨h0, h1, h3⟩ := hne op h
  rw [decodeReserved, if_neg h0, if_neg h1, if_neg h3]

theorem decode_last {op : BitVec 3} (arg : BitVec 5) (h : fieldIn 4 7 op = true) :
    decode (commandWord op arg) = .reserved80FF op arg := by
  have hne : ∀ op : BitVec 3, fieldIn 4 7 op = true → op ≠ 2 ∧ op ∉ [0, 1, 3] := by decide
  obtain ⟨hpush, hmem⟩ := hne op h
  rw [decode_reserved hpush (fun hbare => hmem hbare.2), decodeReserved_of_last h]

theorem decode_encode {i : Instr} (h : i.wellFormed = true) : decode (encode i) = i := by
  cases i with
  | nop | start | finish => rfl
  | push g => exact decode_push g
  | reserved0101 | reserved2121 | reserved6161 => rfl
  | reserved0203 arg | reserved2223 arg | reserved6263 arg =>
    exact (decode_reserved_of_arg (by decide) h).trans (decodeReservedArg_row2 h)
  | reserved0407 arg | reserved2427 arg | reserved6467 arg =>
    exact (decode_reserved_of_arg (by decide) h).trans (decodeReservedArg_row4 h)
  | reserved080F arg | reserved282F arg | reserved686F arg =>
    exact (decode_reserved_of_arg (by decide) h).trans (decodeReservedArg_row8 h)
  | reserved101F arg | reserved303F arg | reserved707F arg =>
    exact (decode_reserved_of_arg (by decide) h).trans (decodeReservedArg_row16 h)
  | reserved80FF op arg => exact decode_last arg h

/-! #### What every word spells -/

/-- `w` is the word of the command `i`, and `i` is one that words spell. -/
def Spells (w : CommandWord) (i : Instr) : Prop := i.wellFormed = true ∧ encode i = w

theorem spells_decodeReservedArg {op : BitVec 3} {r1 : Instr} {r2 r4 r8 r16 : BitVec 5 → Instr} {arg : BitVec 5}
    (h1 : Spells (commandWord op 1) r1)
    (h2 : ∀ arg, fieldIn 2 3 arg = true → Spells (commandWord op arg) (r2 arg))
    (h4 : ∀ arg, fieldIn 4 7 arg = true → Spells (commandWord op arg) (r4 arg))
    (h8 : ∀ arg, fieldIn 8 15 arg = true → Spells (commandWord op arg) (r8 arg))
    (h16 : ∀ arg, fieldIn 16 31 arg = true → Spells (commandWord op arg) (r16 arg))
    (harg : arg ≠ 0) : Spells (commandWord op arg) (decodeReservedArg r1 r2 r4 r8 r16 arg) := by
  have hpos : arg.toNat ≠ 0 := fun h => harg (BitVec.eq_of_toNat_eq h)
  have hlt : arg.toNat < 32 := arg.isLt
  unfold decodeReservedArg
  split_ifs with hone htwo hfour height
  · obtain rfl : arg = 1 := BitVec.eq_of_toNat_eq (show arg.toNat = 1 by omega)
    exact h1
  · exact h2 arg (fieldIn_iff.2 (by omega))
  · exact h4 arg (fieldIn_iff.2 (by omega))
  · exact h8 arg (fieldIn_iff.2 (by omega))
  · exact h16 arg (fieldIn_iff.2 (by omega))

/-- The reserved rows cover every word that spells none of the four commands. -/
theorem spells_decodeReserved {op : BitVec 3} {arg : BitVec 5} (hpush : op ≠ 2)
    (hbare : ¬ (arg = 0 ∧ op ∈ [0, 1, 3])) : Spells (commandWord op arg) (decodeReserved op arg) := by
  have hops : ∀ op : BitVec 3, op ≠ 2 → op = 0 ∨ op = 1 ∨ op = 3 ∨ fieldIn 4 7 op = true := by decide
  obtain hrow | hlast : op ∈ [0, 1, 3] ∨ fieldIn 4 7 op = true := by simpa [or_assoc] using hops op hpush
  · have harg : arg ≠ 0 := fun h => hbare ⟨h, hrow⟩
    simp only [List.mem_cons, List.not_mem_nil, or_false] at hrow
    obtain rfl | rfl | rfl := hrow <;>
      exact spells_decodeReservedArg ⟨rfl, rfl⟩ (fun _ h => ⟨h, rfl⟩) (fun _ h => ⟨h, rfl⟩) (fun _ h => ⟨h, rfl⟩)
        (fun _ h => ⟨h, rfl⟩) harg
  · rw [decodeReserved_of_last hlast]
    exact ⟨hlast, rfl⟩

/-- Every word spells the command it decodes to. -/
theorem spells_decode (w : CommandWord) : Spells w (decode w) := by
  rw [← commandWord_fields w]
  generalize opField w = op, argField w = arg
  by_cases hpush : op = 2
  · subst hpush
    rw [decode_push]
    exact ⟨rfl, rfl⟩
  by_cases hbare : arg = 0 ∧ op ∈ [0, 1, 3]
  · obtain ⟨rfl, hop⟩ := hbare
    simp only [List.mem_cons, List.not_mem_nil, or_false] at hop
    obtain rfl | rfl | rfl := hop <;> exact ⟨rfl, rfl⟩
  · rw [decode_reserved hpush hbare]
    exact spells_decodeReserved hpush hbare

/-- Settles O27: by the rows of the opcode map, from the command to its word and from the word's fields to its row. -/
theorem decodeEncodeRoundTrip : Obligations.DecodeEncodeRoundTrip :=
  ⟨fun _ => decode_encode, spells_decode⟩

/-! #### The decode procedure by numbers -/

theorem commandKind_decodeReserved (op : BitVec 3) (arg : BitVec 5) :
    commandKind (decodeReserved op arg) = .reserved := by
  unfold decodeReserved decodeReservedArg
  split_ifs <;> rfl

/-- Settles O28: `w / 32` and `w % 32` are the fields of `w`, and the decoder answers by the fields. -/
theorem decodeProcedure : Obligations.DecodeProcedure := by
  intro w
  rw [← commandWord_fields w]
  generalize opField w = op, argField w = arg
  have hlt : arg.toNat < 32 := arg.isLt
  have hop : (commandWord op arg).toNat / 32 = op.toNat := by rw [toNat_commandWord]; omega
  have harg : (commandWord op arg).toNat % 32 = arg.toNat := by rw [toNat_commandWord]; omega
  rw [hop, harg]
  refine ⟨fun h => ?push, fun h => ?nop, fun h => ?start, fun h => ?finish, fun ⟨hpush, hbare⟩ => ?reserved⟩
  case push =>
    obtain ⟨-, rfl⟩ := BitVec.toNat_eq_nat.1 h
    rw [BitVec.ofNat_toNat, BitVec.setWidth_eq]
    exact decode_push arg
  case nop | start | finish =>
    obtain ⟨-, rfl⟩ := BitVec.toNat_eq_nat.1 h.1
    obtain ⟨-, rfl⟩ := BitVec.toNat_eq_nat.1 h.2
    rfl
  case reserved =>
    have hbare' : ¬ (arg = 0 ∧ op ∈ [0, 1, 3]) := fun ⟨ha, ho⟩ =>
      hbare ⟨congrArg BitVec.toNat ha, List.mem_map_of_mem (f := BitVec.toNat) ho⟩
    rw [decode_reserved (fun h => hpush (congrArg BitVec.toNat h)) hbare', commandKind_decodeReserved]

end Sys2Proof
end

/-! ### A clock edge that carries a command (30_encoding R45) -/

section
namespace Sys2Proof.Machine

theorem ClockEdge.action_of_command {e : ClockEdge} (hrst : e.rst = false) (hvalid : e.cmdValid = true) :
    e.action = .command e.cmd := by
  simp [ClockEdge.action, hrst, hvalid]

/-- In a block that has been reset, an edge that accepts a word runs its command. -/
theorem step_of_command {s : State} {e : ClockEdge} {rest : List ClockEdge} (hedges : s.edges = e :: rest)
    (hreset : s.wasReset = true) (hrst : e.rst = false) (hvalid : e.cmdValid = true) :
    step s = exec (decode e.cmd) { s with edges := rest } := by
  rw [step_cons hedges, e.action_of_command hrst hvalid]
  exact if_pos hreset

/-- `withFetchWord` puts an edge that accepts the word in front, in a block that counts as reset. -/
theorem step_withFetchWord (s : State) (nbits w : Nat) :
    step (s.withFetchWord nbits w) = exec (decode (BitVec.ofNat 8 w)) { s with wasReset := true } :=
  step_of_command (s := s.withFetchWord nbits w) (e := ⟨false, true, BitVec.ofNat 8 w⟩) (rest := s.edges)
    rfl rfl rfl rfl

/-- Settles O4: an edge that accepts a word, the edge `withFetchWord` presents, and no edge at all. -/
theorem stepRunsDecodedCommand : Obligations.StepRunsDecodedCommand :=
  ⟨fun _ _ _ => step_of_command, fun s => step_withFetchWord s 8, fun _ => step_nil⟩

end Sys2Proof.Machine
end

/-! ### The pseudo-instructions and the lines of the assembler (30_encoding R55, R56) -/

section
namespace Sys2Proof.Machine

/-- With padding, `repack` at positive widths never errs (40_bitpacker R61 c). -/
theorem repack_pad_ok {fromBits toBits : Nat} (hfrom : 0 < fromBits) (hto : 0 < toBits)
    (input : List (BitVec fromBits)) : ∃ out : List (BitVec toBits), repack fromBits toBits true input = .ok out := by
  rw [repack, if_neg (by omega)]
  exact ⟨_, rfl⟩

theorem pushBytes_of_repack {bytes : List Byte} {g : List Group} (h : repack 8 5 true bytes = .ok g) :
    pushBytes bytes = .ok (g.map .push) := by
  rw [pushBytes, h]

/-- PUSHBYTES never errs. -/
theorem pushBytes_ok (bytes : List Byte) :
    ∃ g : List Group, repack 8 5 true bytes = .ok g ∧ pushBytes bytes = .ok (g.map .push) := by
  obtain ⟨g, hg⟩ := repack_pad_ok (fromBits := 8) (toBits := 5) (by decide) (by decide) bytes
  exact ⟨g, hg, pushBytes_of_repack hg⟩

theorem venc_isSome_iff (t : AddressType) (n : Nat) :
    (venc t n).isSome ↔ n ∈ [20, 24, 28, 32, 40, 48, 56, 64] := by
  rw [venc, Config.hashSizes, Option.isSome_ite]

theorem addressCommands_of_venc_none {t : AddressType} {hash : List Byte} (h : venc t hash.length = none) :
    addressCommands t hash = .error .hashSize := by
  rw [addressCommands, h]

theorem addressCommands_of_venc_some {t : AddressType} {hash : List Byte} {v : Byte} {pushes : List Instr}
    (hv : venc t hash.length = some v) (hp : pushBytes (v :: hash) = .ok pushes) :
    addressCommands t hash = .ok ([.start] ++ pushes ++ [.finish]) := by
  rw [addressCommands, hv]
  dsimp only
  rw [hp]
  rfl

/-- Settles O46: PUSHBYTES never errs, so ADDRESS errs exactly where `venc` has no version byte. -/
theorem pseudoInstructionExpansions : Obligations.PseudoInstructionExpansions := by
  refine ⟨fun g => rfl, pushBytes_ok, fun t hash hsize => ?outside, fun t hash hsize => ?inside⟩
  case outside =>
    exact addressCommands_of_venc_none (Option.not_isSome_iff_eq_none.1 (mt (venc_isSome_iff t _).1 hsize))
  case inside =>
    obtain ⟨v, hv⟩ := Option.isSome_iff_exists.1 ((venc_isSome_iff t _).2 hsize)
    obtain ⟨g, -, hp⟩ := pushBytes_ok (v :: hash)
    exact ⟨v, _, hv, hp, addressCommands_of_venc_some hv hp⟩

/-- Settles O47: each line is assembled by running `assembleLine` on its text. -/
theorem assemblerSampleLines : Obligations.AssemblerSampleLines :=
  ⟨rfl, rfl, rfl, rfl, rfl, rfl, rfl⟩

end Sys2Proof.Machine
end

/-! ### START and PUSH, carried out (40_bitpacker R64 to R67) -/

section
namespace Sys2Proof.Machine

theorem exec_start_of_ne_fault {s : State} (h : s.seq ≠ .fault) : exec .start s = .next (startTransaction s) :=
  congrArg Host.Outcome.next (unlessFault_of_ne h)

/-- Settles O8: after START neither `done` nor `fault` holds, and a second START writes the same values. -/
theorem startBeginsATransaction : Obligations.StartBeginsATransaction := by
  refine ⟨rfl, fun s => ⟨fun hfault => ?ignored, fun hseq => ?carriedOut⟩⟩
  case ignored => exact congrArg Host.Outcome.next (unlessFault_of_fault hfault)
  case carriedOut =>
    have hclosed : (startTransaction s).ok = false := rfl
    exact ⟨startTransaction s, exec_start_of_ne_fault hseq, rfl, rfl, fun a => rdData_of_closed (by simp [hclosed]),
      exec_start_of_ne_fault (by simp)⟩

theorem exec_push_of_active {s : State} (g : Group) (h : s.seq = .active) :
    exec (.push g) s = .next (pushGroup g s) :=
  congrArg Host.Outcome.next (onlyActive_of_active h)

/-- Outside ACTIVE a PUSH is a fault of the protocol, but FAULT ignores it. -/
theorem exec_push_of_idle_or_done {s : State} (g : Group) (h : s.seq = .idle ∨ s.seq = .done) :
    exec (.push g) s = .next (raiseFault .fSeq s) := by
  obtain ⟨hact, -⟩ | ⟨-, -, heq⟩ | ⟨hfault, -⟩ := onlyActive_cases (pushGroup g) s
  · simp [hact] at h
  · exact congrArg Host.Outcome.next heq
  · simp [hfault] at h

/-- A group shifted into a packed accumulator of `n` bits gives a packed one of `n + 5`. -/
theorem shiftIn_lt {a n : Nat} (g : Group) (h : a < 2 ^ n) : a * 32 + g.toNat < 2 ^ (n + 5) := by
  have hg : g.toNat < 32 := g.isLt
  rw [Nat.pow_add]
  omega

/-- Settles O9: in ACTIVE each register is the one that `pushGroup` leaves, by whether NBITS + 5 reaches 8. -/
theorem pushPacksOneGroup : Obligations.PushPacksOneGroup := by
  refine ⟨by decide, fun g s => exec_push_of_idle_or_done g,
    fun g s hfault => congrArg Host.Outcome.next (onlyActive_of_fault hfault), fun g s hact hpacked => ?_⟩
  have hn : s.nbits.toNat < 8 := s.nbits.isLt
  have hbcnt0 : s.bcnt = 0 ↔ s.bcnt.toNat = 0 := by rw [← BitVec.toNat_inj]; rfl
  refine ⟨pushGroup g s, exec_push_of_active g hact, pushGroup_last g s, pushGroup_ne g s,
    (pushGroup_seq g s).trans hact, pushGroup_err g s, fun hshort => ?short, fun hlong => ?long⟩
  case short =>
    have h3 : ¬ 3 ≤ s.nbits.toNat := by omega
    refine ⟨?_, ?_, BitVec.eq_of_toNat_eq ?_, ?_, fun a => ?_⟩
    · rw [pushGroup_acc_toNat g s hpacked, Nat.mod_eq_of_lt hshort, Nat.mod_eq_of_lt (shiftIn_lt g hpacked)]
    · rw [pushGroup_nbits_toNat, Nat.mod_eq_of_lt hshort]
    · rw [pushGroup_bcnt_toNat, if_neg h3]
    · rw [pushGroup_ver, if_neg (by simp [h3])]
    · rw [hashRead_pushGroup, if_neg (by simp [h3])]
  case long =>
    have h3 : 3 ≤ s.nbits.toNat := by omega
    have hr : (s.nbits.toNat + 5) % 8 = s.nbits.toNat + 5 - 8 := by omega
    have hver := pushGroup_ver g s
    have hhash := hashRead_pushGroup g s
    simp only [h3, true_and, hbcnt0] at hver hhash
    refine ⟨s.nbits.toNat + 5 - 8, pushedByte g s, rfl, pushedByte_toNat g s h3 hpacked, ?_, ?_, ?_,
      fun hfirst => ⟨?_, fun a => ?_⟩, fun hlo hhi => ⟨?_, fun a => ?_⟩, fun hdrop => ⟨?_, fun a => ?_⟩⟩
    · rw [pushGroup_acc_toNat g s hpacked, hr]
    · rw [pushGroup_nbits_toNat, hr]
    · rw [pushGroup_bcnt_toNat, if_pos h3]
    · rw [hver, if_pos hfirst]
    · rw [hhash, if_neg (by omega)]
    · rw [hver, if_neg (by omega)]
    · rw [hhash]
      exact if_congr (by omega) rfl rfl
    · rw [hver, if_neg (by omega)]
    · rw [hhash, if_neg (by omega)]

/-- A command that answers a next state is passed, and the rest runs from there. -/
theorem runCommands_cons {i : Instr} {s t : State} (h : exec i s = .next t) (is : List Instr) :
    runCommands (i :: is) s = runCommands is t := by
  rw [runCommands, h]

/-- Settles O11, by induction on the groups: a PUSH in ACTIVE stays there and adds 5 to NBITS modulo 8. -/
theorem anyNumberOfPushesIsCarriedOut : Obligations.AnyNumberOfPushesIsCarriedOut := by
  intro gs
  induction gs with
  | nil =>
    intro s hact
    exact ⟨s, rfl, hact, rfl, rfl, (Nat.mod_eq_of_lt s.nbits.isLt).symm⟩
  | cons g gs ih =>
    intro s hact
    obtain ⟨t, hrun, hseq, herr, hlast, hnbits⟩ := ih (pushGroup g s) ((pushGroup_seq g s).trans hact)
    refine ⟨t, ?_, hseq, by rw [herr, pushGroup_err], ?_, ?_⟩
    · rw [List.map_cons, runCommands_cons (exec_push_of_active g hact), hrun]
    · rw [hlast, pushGroup_last, List.getLast?_cons, Option.getD_some]
    · rw [hnbits, pushGroup_nbits_toNat, List.length_cons]
      omega

end Sys2Proof.Machine
end

/-! ### What `repack` computes, for any widths (40_bitpacker R60, R61) -/

section
namespace Sys2Proof.Machine

/-- The number that the elements' bits make up, the first element's on top. -/
def bitsValue {w : Nat} (xs : List (BitVec w)) : Nat := Nat.ofDigits (2 ^ w) (xs.map BitVec.toNat).reverse

theorem bitsValue_snoc {w : Nat} (xs : List (BitVec w)) (x : BitVec w) :
    bitsValue (xs ++ [x]) = bitsValue xs * 2 ^ w + x.toNat := by
  simp [bitsValue, Nat.ofDigits_cons, Nat.mul_comm, Nat.add_comm]

/-- Elements of a positive width are determined by their number and their bits. -/
theorem bitsValue_inj {w : Nat} (hw : 0 < w) {xs ys : List (BitVec w)} (hlen : xs.length = ys.length)
    (hval : bitsValue xs = bitsValue ys) : xs = ys := by
  have hdigit : ∀ zs : List (BitVec w), ∀ d ∈ (zs.map BitVec.toNat).reverse, d < 2 ^ w := by
    simp only [List.mem_reverse, List.mem_map]
    rintro zs d ⟨z, -, rfl⟩
    exact z.isLt
  have hdigits : (xs.map BitVec.toNat).reverse = (ys.map BitVec.toNat).reverse :=
    Nat.ofDigits_inj_of_len_eq (Nat.one_lt_two_pow (by omega)) (by simp [hlen]) (hdigit xs) (hdigit ys) hval
  exact List.map_injective_iff.2 (fun _ _ => BitVec.eq_of_toNat_eq) (List.reverse_injective hdigits)

/-- The low bits of the whole are those of its last element. -/
theorem bitsValue_mod_two_pow {w k : Nat} {xs : List (BitVec w)} {x : BitVec w} (hk : k ≤ w)
    (h : xs.getLast? = some x) : bitsValue xs % 2 ^ k = x.toNat % 2 ^ k := by
  obtain ⟨ys, rfl⟩ := List.getLast?_eq_some_iff.1 h
  have hdvd : 2 ^ k ∣ bitsValue ys * 2 ^ w := (pow_dvd_pow 2 hk).mul_left _
  rw [bitsValue_snoc, Nat.add_mod, Nat.mod_eq_zero_of_dvd hdvd, Nat.zero_add, Nat.mod_mod]

theorem bitsValue_mod_two_pow_eq_zero_iff {w k : Nat} {xs : List (BitVec w)} (hk : k ≤ w) :
    bitsValue xs % 2 ^ k = 0 ↔ ∀ x, xs.getLast? = some x → x.toNat % 2 ^ k = 0 := by
  cases hlast : xs.getLast? with
  | none =>
    rw [List.getLast?_eq_none_iff.1 hlast]
    exact iff_of_true (Nat.zero_mod _) nofun
  | some x => rw [bitsValue_mod_two_pow hk hlast]; simp

/-! #### The loop -/

/-- The loop has taken in `n` bits, the number `v`: those it does not buffer are in the output, the top ones first. -/
structure Packing.Holds {toBits : Nat} (p : Packing toBits) (n v : Nat) : Prop where
  acc : p.acc = v
  count : p.out.length * toBits + p.bits = n
  value : bitsValue p.out = v / 2 ^ p.bits

/-- Draining moves bits from the buffer to the output. -/
theorem Packing.Holds.drain {toBits n v : Nat} (fuel : Nat) {p : Packing toBits} (h : p.Holds n v) :
    (drain fuel p).Holds n v := by
  induction fuel generalizing p with
  | zero => exact h
  | succ fuel ih =>
    rw [Machine.drain]
    split_ifs with hfull
    · refine ih ⟨h.acc, ?count, ?value⟩
      case count =>
        have hcount := h.count
        rw [List.length_append, List.length_singleton, Nat.add_mul]
        dsimp only
        omega
      case value =>
        have htop : v / 2 ^ p.bits = v / 2 ^ (p.bits - toBits) / 2 ^ toBits := by
          rw [Nat.div_div_eq_div_mul, ← Nat.pow_add, Nat.sub_add_cancel hfull]
        rw [bitsValue_snoc, h.value, h.acc, htop, BitVec.toNat_ofNat, Nat.shiftRight_eq_div_pow, Nat.div_add_mod']
    · exact h

/-- With a turn for every buffered bit, draining leaves less than one element. -/
theorem drain_bits_lt {toBits : Nat} (hto : 0 < toBits) {fuel : Nat} {p : Packing toBits} (h : p.bits ≤ fuel) :
    (drain fuel p).bits < toBits := by
  induction fuel generalizing p with
  | zero => rw [drain]; omega
  | succ fuel ih =>
    rw [drain]
    split_ifs with hfull
    · exact ih (by dsimp only; omega)
    · omega

/-- A turn of the loop takes one element in. -/
theorem Packing.Holds.packTurn {fromBits toBits n v : Nat} {p : Packing toBits} (h : p.Holds n v)
    (g : BitVec fromBits) : (packTurn p g).Holds (n + fromBits) (v * 2 ^ fromBits + g.toNat) := by
  refine Packing.Holds.drain _ ⟨?acc, ?count, ?value⟩
  case acc => rw [← Nat.shiftLeft_add_eq_or_of_lt g.isLt, Nat.shiftLeft_eq, h.acc]
  case count => rw [← h.count, Nat.add_assoc]
  case value =>
    rw [h.value, Nat.add_comm p.bits, Nat.pow_add, ← Nat.div_div_eq_div_mul, Nat.mul_comm v,
      Nat.mul_add_div (Nat.two_pow_pos _), Nat.div_eq_of_lt g.isLt, Nat.add_zero]

theorem Packing.Holds.leftover {toBits n v : Nat} {p : Packing toBits} (h : p.Holds n v) :
    p.leftover = v % 2 ^ p.bits := by
  rw [Packing.leftover, and_natMask, h.acc]

/-- The bits left over, with zeros up to a whole element, complete the output. -/
theorem Packing.Holds.value_padded {toBits n v : Nat} {p : Packing toBits} (h : p.Holds n v) (hle : p.bits ≤ toBits) :
    bitsValue (p.out ++ [BitVec.ofNat toBits (p.leftover <<< (toBits - p.bits))]) = v * 2 ^ (toBits - p.bits) := by
  have hsplit : 2 ^ toBits = 2 ^ p.bits * 2 ^ (toBits - p.bits) := by rw [← Nat.pow_add, Nat.add_sub_cancel' hle]
  have hfit : v % 2 ^ p.bits * 2 ^ (toBits - p.bits) < 2 ^ toBits := by
    rw [hsplit]
    exact Nat.mul_lt_mul_of_pos_right (Nat.mod_lt _ (Nat.two_pow_pos _)) (Nat.two_pow_pos _)
  rw [bitsValue_snoc, BitVec.toNat_ofNat, h.leftover, Nat.shiftLeft_eq, Nat.mod_eq_of_lt hfit, h.value, hsplit,
    ← Nat.mul_assoc, ← Nat.add_mul, Nat.div_add_mod']

theorem packLoop_holds {fromBits : Nat} (toBits : Nat) (input : List (BitVec fromBits)) :
    (packLoop fromBits toBits input).Holds (input.length * fromBits) (bitsValue input) := by
  induction input using List.reverseRecOn with
  | nil => exact ⟨rfl, by simp [packLoop, Packing.start], (Nat.zero_div _).symm⟩
  | append_singleton gs g ih =>
    rw [packLoop_snoc, bitsValue_snoc, List.length_append, List.length_singleton, Nat.add_mul, Nat.one_mul]
    exact ih.packTurn g

theorem packLoop_bits_lt {fromBits toBits : Nat} (hto : 0 < toBits) (input : List (BitVec fromBits)) :
    (packLoop fromBits toBits input).bits < toBits := by
  cases input using List.reverseRecOn with
  | nil => exact hto
  | append_singleton gs g =>
    rw [packLoop_snoc]
    exact drain_bits_lt hto le_rfl

/-- The loop leaves the bits that fill no element (40_bitpacker R61 a). -/
theorem packLoop_bits {fromBits toBits : Nat} (hto : 0 < toBits) (input : List (BitVec fromBits)) :
    (packLoop fromBits toBits input).bits = input.length * fromBits % toBits := by
  rw [← (packLoop_holds toBits input).count, Nat.mul_add_mod', Nat.mod_eq_of_lt (packLoop_bits_lt hto input)]

/-! #### `repack` as a relation between two sequences -/

/-- The bits of `ys` are those of `xs` and `k` more, which are 0. -/
structure PaddedBy {a b : Nat} (k : Nat) (xs : List (BitVec a)) (ys : List (BitVec b)) : Prop where
  count : ys.length * b = xs.length * a + k
  value : bitsValue ys = bitsValue xs * 2 ^ k

section
variable {a b k l : Nat} {xs xs' : List (BitVec a)} {ys ys' : List (BitVec b)}

/-- The padding is less than an element of `xs`: those are as many as the bits of `ys` fill. -/
theorem PaddedBy.length_left (h : PaddedBy k xs ys) (hk : k < a) : xs.length = ys.length * b / a := by
  rw [h.count, Nat.add_comm, Nat.add_mul_div_right _ _ (Nat.zero_lt_of_lt hk), Nat.div_eq_of_lt hk, Nat.zero_add]

/-- The padding is less than an element of `ys`: those are as many as hold the bits of `xs`. -/
theorem PaddedBy.length_right (h : PaddedBy k xs ys) (hk : k < b) :
    ys.length = (xs.length * a + (b - 1)) / b := by
  have hcount : xs.length * a + (b - 1) = (b - 1 - k) + ys.length * b := by rw [h.count]; omega
  rw [hcount, Nat.add_mul_div_right _ _ (by omega), Nat.div_eq_of_lt (by omega), Nat.zero_add]

/-- What the padding is taken from is determined, while it is less than one element. -/
theorem PaddedBy.left_unique (h : PaddedBy k xs ys) (h' : PaddedBy l xs' ys) (hk : k < a) (hl : l < a) : xs = xs' := by
  have hlen : xs.length = xs'.length := (h.length_left hk).trans (h'.length_left hl).symm
  have hcount := h.count.symm.trans h'.count
  obtain rfl : k = l := by rw [hlen] at hcount; omega
  exact bitsValue_inj (by omega) hlen (Nat.eq_of_mul_eq_mul_right (Nat.two_pow_pos k) (h.value.symm.trans h'.value))

/-- What the padding completes is determined, while it is less than one element. -/
theorem PaddedBy.right_unique (h : PaddedBy k xs ys) (h' : PaddedBy l xs ys') (hk : k < b) (hl : l < b) : ys = ys' := by
  have hlen : ys.length = ys'.length := (h.length_right hk).trans (h'.length_right hl).symm
  obtain rfl : k = l := by
    have hcount := h.count
    rw [hlen, h'.count] at hcount
    omega
  exact bitsValue_inj (by omega) hlen (h.value.trans h'.value.symm)

end

section
variable {fromBits toBits : Nat}

/-- Where the bits left are 0, the input is the output of the loop, padded by them. -/
theorem paddedBy_packLoop_out {input : List (BitVec fromBits)}
    (h : (packLoop fromBits toBits input).leftover = 0) :
    PaddedBy (packLoop fromBits toBits input).bits (packLoop fromBits toBits input).out input where
  count := (packLoop_holds toBits input).count.symm
  value := by
    rw [(packLoop_holds toBits input).leftover] at h
    rw [(packLoop_holds toBits input).value, Nat.div_mul_cancel (Nat.dvd_of_mod_eq_zero h)]

/-- Without padding, `repack` takes away what its input was padded by, less than one element of the output. -/
theorem repack_false_eq_ok_iff (hfrom : 0 < fromBits) (hto : 0 < toBits) {input : List (BitVec fromBits)}
    {out : List (BitVec toBits)} :
    repack fromBits toBits false input = .ok out ↔ ∃ k < toBits, PaddedBy k out input := by
  have hlt := packLoop_bits_lt hto input
  rw [repack, if_neg (by omega)]
  dsimp only
  rw [if_neg Bool.false_ne_true]
  split_ifs with hleft
  · refine iff_of_false (by simp) fun ⟨k, hk, h⟩ => hleft ?_
    have hbits : (packLoop fromBits toBits input).bits = k := by
      rw [packLoop_bits hto, h.count, Nat.mul_add_mod', Nat.mod_eq_of_lt hk]
    rw [(packLoop_holds toBits input).leftover, hbits, h.value, Nat.mul_mod_left]
  · have hout := paddedBy_packLoop_out (not_not.1 hleft)
    rw [Except.ok.injEq]
    constructor
    · rintro rfl
      exact ⟨_, hlt, hout⟩
    · exact fun ⟨k, hk, h⟩ => hout.left_unique h hlt hk

/-- With padding, `repack` gives a sequence of the input's bits and fewer zeros than one element of the output. -/
theorem exists_repack_true (hfrom : 0 < fromBits) (hto : 0 < toBits) (input : List (BitVec fromBits)) :
    ∃ out : List (BitVec toBits), repack fromBits toBits true input = .ok out ∧
      ∃ k < toBits, PaddedBy k input out := by
  obtain ⟨out, hok⟩ := repack_pad_ok hfrom hto input
  refine ⟨out, hok, ?_⟩
  have hlt := packLoop_bits_lt hto input
  have hholds := packLoop_holds toBits input
  have hcount := hholds.count
  rw [repack, if_neg (by omega)] at hok
  dsimp only at hok
  rw [if_pos rfl, Except.ok.injEq] at hok
  subst hok
  split_ifs with hpos
  · refine ⟨toBits - (packLoop fromBits toBits input).bits, by omega, ?count, hholds.value_padded hlt.le⟩
    rw [List.length_append, List.length_singleton, Nat.add_mul, Nat.one_mul]
    omega
  · have hzero : (packLoop fromBits toBits input).bits = 0 := by omega
    refine ⟨0, hto, by omega, ?value⟩
    rw [hholds.value, hzero, Nat.pow_zero, Nat.div_one, Nat.mul_one]

theorem repack_true_eq_ok_iff (hfrom : 0 < fromBits) (hto : 0 < toBits) {input : List (BitVec fromBits)}
    {out : List (BitVec toBits)} :
    repack fromBits toBits true input = .ok out ↔ ∃ k < toBits, PaddedBy k input out := by
  obtain ⟨out', hok, k', hk', h'⟩ := exists_repack_true hfrom hto input
  rw [hok, Except.ok.injEq]
  constructor
  · rintro rfl
    exact ⟨k', hk', h'⟩
  · exact fun ⟨k, hk, h⟩ => h'.right_unique h hk' hk

end

/-- Settles O39: input and output have the same bits but for a padding of less than one output element. -/
theorem repackCounts : Obligations.RepackCounts := by
  intro fromBits toBits input hfrom hto
  refine ⟨packLoop_bits hto input, fun out hok => ?noPad, ?pad⟩
  case noPad =>
    obtain ⟨k, hk, h⟩ := (repack_false_eq_ok_iff hfrom hto).1 hok
    exact h.length_left hk
  case pad =>
    obtain ⟨out, hok, k, hk, h⟩ := exists_repack_true hfrom hto input
    exact ⟨out, hok, h.length_right hk⟩

/-- Settles O40: both directions of `repack` say that `y` is `x` padded, by fewer than 5 bits or by fewer than 8. -/
theorem repackInverse : Obligations.RepackInverse := by
  refine ⟨fun x => ?inverse, fun y => ⟨?necessary, ?sufficient⟩⟩
  case inverse =>
    obtain ⟨y, hok, k, hk, h⟩ := exists_repack_true (fromBits := 8) (toBits := 5) (by decide) (by decide) x
    exact ⟨y, hok, (repack_false_eq_ok_iff (by decide) (by decide)).2 ⟨k, by omega, h⟩⟩
  case necessary =>
    rintro ⟨x, -, hpad⟩
    obtain ⟨k, hk, h⟩ := (repack_true_eq_ok_iff (by decide) (by decide)).1 hpad
    have hcount := h.count
    have hbits : y.length * 5 % 8 = k := by omega
    rw [hbits, ← bitsValue_mod_two_pow_eq_zero_iff hk.le, h.value]
    exact ⟨hk, Nat.mul_mod_left _ _⟩
  case sufficient =>
    rintro ⟨hlt, hlast⟩
    have hbits : (packLoop 5 8 y).bits = y.length * 5 % 8 := packLoop_bits (by decide) y
    have hleft : (packLoop 5 8 y).leftover = 0 := by
      rw [(packLoop_holds 8 y).leftover, hbits]
      exact (bitsValue_mod_two_pow_eq_zero_iff hlt.le).2 hlast
    have h := paddedBy_packLoop_out hleft
    rw [← hbits] at hlt
    exact ⟨_, (repack_false_eq_ok_iff (by decide) (by decide)).2 ⟨_, by omega, h⟩,
      (repack_true_eq_ok_iff (by decide) (by decide)).2 ⟨_, hlt, h⟩⟩

end Sys2Proof.Machine
end

/-! ### The six checks as arithmetic (41_validator R75 to R83) -/

section
namespace Sys2Proof.Machine

theorem rsv_toNat (v : Byte) : (rsv v).toNat = v.toNat / 128 := by
  rw [rsv, BitVec.extractLsb'_toNat, Nat.shiftRight_eq_div_pow]
  have hv : v.toNat < 256 := v.isLt
  omega

theorem tsel_toNat (v : Byte) : (tsel v).toNat = v.toNat / 8 % 16 := by
  rw [tsel, BitVec.extractLsb'_toNat, Nat.shiftRight_eq_div_pow]

theorem rsv_eq_one_iff (v : Byte) : rsv v = 1 ↔ 128 ≤ v.toNat := by
  have hv : v.toNat < 256 := v.isLt
  have hone : (1 : BitVec 1).toNat = 1 := rfl
  rw [← BitVec.toNat_inj, rsv_toNat, hone]
  omega

theorem hsize_toNat (v : Byte) :
    (hsize v).toNat = (20 + 4 * (v.toNat % 4)) * (if v.toNat / 4 % 2 = 1 then 2 else 1) := by
  have hlow : ((v &&& 0x03).setWidth 7 : BitVec 7).toNat = v.toNat % 4 := by
    have hand : (v &&& 0x03).toNat = v.toNat % 4 := Nat.and_two_pow_sub_one_eq_mod v.toNat 2
    rw [BitVec.toNat_setWidth, hand]
    omega
  have hbit : v.getLsbD 2 = decide (v.toNat / 4 % 2 = 1) := Nat.testBit_eq_decide_div_mod_eq
  have hbase : (20 + 4 * (v &&& 0x03).setWidth 7 : BitVec 7).toNat = 20 + 4 * (v.toNat % 4) := by
    change (20 + 4 * ((v &&& 0x03).setWidth 7 : BitVec 7).toNat % 128) % 128 = _
    rw [hlow]
    omega
  rw [hsize]
  simp only [hbit, decide_eq_true_eq]
  split_ifs
  · change (20 + 4 * (v &&& 0x03).setWidth 7 : BitVec 7).toNat * 2 % 128 = _
    rw [hbase]
    omega
  · rw [hbase, Nat.mul_one]

theorem hsize_le (v : Byte) : (hsize v).toNat ≤ 64 := by
  rw [hsize_toNat]
  split_ifs <;> omega

/-- `hsize` is total: every byte says one of the eight sizes. -/
theorem hsize_mem (v : Byte) : (hsize v).toNat ∈ [20, 24, 28, 32, 40, 48, 56, 64] := by
  have hlow : v.toNat % 4 = 0 ∨ v.toNat % 4 = 1 ∨ v.toNat % 4 = 2 ∨ v.toNat % 4 = 3 := by omega
  rw [hsize_toNat]
  split_ifs <;> obtain h | h | h | h := hlow <;> simp [h]

/-- `LAST & mask(NBITS)` is a remainder, also where NBITS is above the five bits of LAST. -/
theorem and_lowMask_nbits_toNat : ∀ (g : Group) (n : BitVec 3),
    (g &&& lowMask 5 n.toNat).toNat = g.toNat % 2 ^ n.toNat := by decide

section
variable (s : State)

theorem failsNonEmpty_iff : failsNonEmpty s = true ↔ s.ne = false := by
  rw [failsNonEmpty, Bool.not_eq_true']

theorem failsAllowedPadding_iff : failsAllowedPadding s = true ↔ 5 ≤ s.nbits.toNat := decide_eq_true_iff

theorem failsZeroPadding_iff : failsZeroPadding s = true ↔ s.last.toNat % 2 ^ s.nbits.toNat ≠ 0 := by
  rw [failsZeroPadding, decide_eq_true_iff, ← and_lowMask_nbits_toNat, ne_eq, ← BitVec.toNat_inj]
  rfl

theorem failsFirstBit_iff : failsFirstBit s = true ↔ 128 ≤ s.ver.toNat :=
  decide_eq_true_iff.trans (rsv_eq_one_iff s.ver)

theorem failsDataLength_iff : failsDataLength s = true ↔ s.bcnt.toNat ≠ (hsize s.ver).toNat + 1 := by
  rw [← Bool.not_eq_false, ne_eq, failsDataLength_eq_false_iff]

theorem failsType_iff : failsType s = true ↔ 2 ≤ s.ver.toNat / 8 % 16 := by
  rw [failsType, decide_eq_true_iff, tsel_toNat]

/-- END's verdict as arithmetic over the registers. -/
theorem verdict_eq :
    verdict s =
      if s.ne = false then .eEmpty
      else if 5 ≤ s.nbits.toNat then .ePadSize
      else if s.last.toNat % 2 ^ s.nbits.toNat ≠ 0 then .ePadNonzero
      else if 128 ≤ s.ver.toNat then .eReserved
      else if s.bcnt.toNat ≠ (hsize s.ver).toNat + 1 then .eLength
      else if 2 ≤ s.ver.toNat / 8 % 16 then .eType
      else .eNone := by
  simp only [verdict, failsNonEmpty_iff, failsAllowedPadding_iff, failsZeroPadding_iff, failsFirstBit_iff,
    failsDataLength_iff, failsType_iff]

/-- The code of the verdict is the number of the first check that fails, counted from 1, and 0 where none does. -/
theorem verdict_code_toNat : (verdict s).code.toNat = ((failingChecks s).findIdx id + 1) % 7 := by
  rw [verdict, failingChecks]
  cases failsNonEmpty s
  case true => rfl
  cases failsAllowedPadding s
  case true => rfl
  cases failsZeroPadding s
  case true => rfl
  cases failsFirstBit s
  case true => rfl
  cases failsDataLength s
  case true => rfl
  cases failsType s <;> rfl

end

/-! #### The first true element of a list -/

section
variable {l : List Bool}

/-- Reading places of the list that exist. -/
theorem forall_getElem?_eq_false_iff {n : Nat} (hn : n ≤ l.length) :
    (∀ d < n, l[d]? = some false) ↔ ∀ (d : Nat) (hd : d < n), l[d] = false :=
  forall₂_congr fun d hd => by rw [List.getElem?_eq_getElem (by omega), Option.some.injEq]

/-- No element is true exactly when a search for one runs to the end. -/
theorem findIdx_id_eq_length_iff : l.findIdx id = l.length ↔ ∀ d < l.length, l[d]? = some false := by
  rw [List.findIdx_eq_length, List.forall_mem_iff_forall_getElem, forall_getElem?_eq_false_iff le_rfl]
  rfl

/-- The first true element is found by a search. -/
theorem findIdx_id_eq_iff {c : Nat} (hc : c < l.length) :
    l.findIdx id = c ↔ l[c]? = some true ∧ ∀ d < c, l[d]? = some false := by
  rw [List.findIdx_eq hc, forall_getElem?_eq_false_iff hc.le, List.getElem?_eq_getElem hc, Option.some.injEq]
  rfl
end

end Sys2Proof.Machine
end

/-! ### END, carried out (41_validator R75, R83) -/

section
namespace Sys2Proof.Machine

theorem exec_finish_of_active {s : State} (h : s.seq = .active) : exec .finish s = .next (closePayload s) :=
  congrArg Host.Outcome.next (onlyActive_of_active h)

/-- Outside ACTIVE an END is a fault of the protocol, but FAULT ignores it. -/
theorem exec_finish_of_idle_or_done {s : State} (h : s.seq = .idle ∨ s.seq = .done) :
    exec .finish s = .next (raiseFault .fSeq s) := by
  obtain ⟨hact, -⟩ | ⟨-, -, heq⟩ | ⟨hfault, -⟩ := onlyActive_cases closePayload s
  · simp [hact] at h
  · exact congrArg Host.Outcome.next heq
  · simp [hfault] at h

/-- Settles O12: END answers `closePayload`, whose ERR is the verdict, read off the registers as arithmetic. -/
theorem endGivesTheVerdict : Obligations.EndGivesTheVerdict := by
  refine ⟨rfl, fun s => exec_finish_of_idle_or_done, fun s hfault => ?ignored, fun s hact => ?verdict⟩
  case ignored => exact congrArg Host.Outcome.next (onlyActive_of_fault hfault)
  case verdict =>
    refine ⟨closePayload s, exec_finish_of_active hact, rfl, ?ok, ?state⟩
    case ok => rw [State.outputs, wire_eq_one_iff, State.ok_iff, closePayload_seq, eq_self, true_and]
    case state =>
      have hlength : (s.bcnt.toNat : Int) - 1 ≠ ((hsize s.ver).toNat : Int) ↔
          s.bcnt.toNat ≠ (hsize s.ver).toNat + 1 := by omega
      simp only [← hsize_toNat, hlength, ← verdict_eq]
      rfl

/-- Settles O13: the code of ERR is the place of the first failing check. -/
theorem firstFailingCheckDecides : Obligations.FirstFailingCheckDecides := by
  intro s hact
  refine ⟨closePayload s, exec_finish_of_active hact, ?_⟩
  have hlen : (failingChecks s).length = 6 := rfl
  have hle : (failingChecks s).findIdx id ≤ 6 := List.findIdx_le_length
  have hnone := findIdx_id_eq_length_iff (l := failingChecks s)
  rw [hlen] at hnone
  rw [closePayload_err, verdict_code_toNat]
  refine ⟨?none, fun c hc => ?first⟩
  case none => exact .trans (by omega) hnone
  case first => exact .trans (by omega) (findIdx_id_eq_iff (l := failingChecks s) hc)

end Sys2Proof.Machine
end

/-! ### What the checks rely on, and what a success means (41_validator R79, R85, R87) -/

section
namespace Sys2Proof.Machine

/-- Fewer bits than a group, whole groups in all: then no bits, and so no group. -/
theorem Datapath.bcnt_pos {s : State} (h : Datapath s) (hne : s.ne = true) (hpad : s.nbits.toNat < 5) :
    1 ≤ s.bcnt.toNat := by
  by_contra hzero
  have hcounted := h.counted (by omega)
  have hbcnt : s.bcnt = 0 := BitVec.eq_of_toNat_eq (show s.bcnt.toNat = 0 by omega)
  have hnbits : s.nbits = 0 := BitVec.eq_of_toNat_eq (show s.nbits.toNat = 0 by omega)
  exact absurd hne (by simp [h.nonEmpty.2 ⟨hbcnt, hnbits⟩])

/-- Settles O15: BCNT = 0 leaves too few bits for a group, and the leftover bits are those of LAST. -/
theorem checksRelyOnTheOnesBefore : Obligations.ChecksRelyOnTheOnesBefore := by
  intro s hinv hreset hempty hallowed
  have hdata := hinv.datapath hreset
  have hpad : s.nbits.toNat < 5 := by simpa [failsAllowedPadding] using hallowed
  refine ⟨hdata.bcnt_pos (by simpa [failsNonEmpty] using hempty) hpad, fun hzero => ?_⟩
  have hmask : s.last &&& lowMask 5 s.nbits.toNat = 0 := by simpa [failsZeroPadding] using hzero
  rw [hdata.leftover (by omega), hmask]
  rfl

/-- A version byte below 16 has its reserved bit 0 and one of the two types. -/
theorem vdec_of_lt {v : Byte} (h : v.toNat < 16) :
    ∃ t : AddressType, vdec v = .ok (t, hsize v) ∧ t.number.toNat = (tsel v).toNat := by
  have hrsv : ¬ rsv v = 1 := by rw [rsv_eq_one_iff]; omega
  have htype : (tsel v).toNat = 0 ∨ (tsel v).toNat = 1 := by rw [tsel_toNat]; omega
  obtain h0 | h1 : tsel v = 0 ∨ tsel v = 1 := htype.imp BitVec.eq_of_toNat_eq BitVec.eq_of_toNat_eq
  · exact ⟨.pubKeyHash, by rw [vdec, if_neg hrsv, decodeType, if_pos h0], by rw [h0]; rfl⟩
  · exact ⟨.scriptHash, by rw [vdec, if_neg hrsv, decodeType, if_neg (by rw [h1]; decide), if_pos h1], by rw [h1]; rfl⟩

/-- A success passed the checks on the version byte. -/
theorem ver_lt_of_verdict_eNone {s : State} (h : verdict s = .eNone) : s.ver.toNat < 16 := by
  obtain ⟨-, -, -, hfirst, -, htype⟩ := (verdict_eNone_iff s).1 h
  rw [← Bool.not_eq_true, failsFirstBit_iff] at hfirst
  rw [← Bool.not_eq_true, failsType_iff] at htype
  omega

/-- Settles O26: ERR = 0 in DONE is the verdict on VER, and `ok` opens the outputs. -/
theorem successMeansAValidVersionByte : Obligations.SuccessMeansAValidVersionByte := by
  intro s hinv hreset hdone herr
  have hver := ver_lt_of_verdict_eNone (((hinv.sequencer hreset).done hdone).symm.trans herr)
  obtain ⟨-, -, -, -, hok, hopen, -⟩ := outputsAreGated s 0
  obtain ⟨-, hatype, hsz, -⟩ := hopen (hok.2 ⟨hdone, herr⟩)
  obtain ⟨t, hvdec, hnumber⟩ := vdec_of_lt hver
  have htsel : s.outputs.atype.toNat = (tsel s.ver).toNat := by rw [hatype, tsel_toNat]; omega
  rw [hsz]
  exact ⟨hver, hsize_mem s.ver, t, hvdec, BitVec.eq_of_toNat_eq (htsel.trans hnumber.symm), htsel⟩

end Sys2Proof.Machine
end

/-! ### The outcome of a payload (41_validator R84, R86) -/

section
namespace Sys2Proof.Machine

/-- The last three checks, on the version byte and the hash. -/
def dataOutcome (v : Byte) (hash : List Byte) : Err :=
  if rsv v = 1 then .eReserved
  else if hash.length ≠ (hsize v).toNat then .eLength
  else if 2 ≤ (tsel v).toNat then .eType
  else .eNone

theorem dataOutcome_of_length_ne {v : Byte} {hash : List Byte} (h : hash.length ≠ (hsize v).toNat) :
    dataOutcome v hash = .eReserved ∨ dataOutcome v hash = .eLength := by
  rw [dataOutcome, if_pos h]
  split_ifs
  · exact .inl rfl
  · exact .inr rfl

theorem length_of_dataOutcome_eNone {v : Byte} {hash : List Byte} (h : dataOutcome v hash = .eNone) :
    hash.length = (hsize v).toNat := by
  by_contra hne
  obtain hres | hlen := dataOutcome_of_length_ne hne
  · cases hres.symm.trans h
  · cases hlen.symm.trans h

/-- The hash is as long as a version byte below 16 says. -/
theorem dataOutcome_eq_eNone {v : Byte} {hash : List Byte} (hv : v.toNat < 16) (hlen : hash.length = (hsize v).toNat) :
    dataOutcome v hash = .eNone := by
  rw [dataOutcome, if_neg (by rw [rsv_eq_one_iff]; omega), if_neg (not_not.2 hlen), if_neg (by rw [tsel_toNat]; omega)]

/-- The groups pass the first three checks, those on the padding. -/
structure WellPadded (g : List Group) : Prop where
  nonEmpty : g ≠ []
  allowed : g.length * 5 % 8 < 5
  zero : ∀ x, g.getLast? = some x → x.toNat % 2 ^ (g.length * 5 % 8) = 0

theorem exists_getLast? {g : List Group} (h : g ≠ []) : ∃ x, g.getLast? = some x :=
  ⟨g.getLast h, List.getLast?_eq_some_getLast h⟩

/-- `repack` accepts well-padded groups, and gives at least one byte, the version byte (41_validator R79, R85). -/
theorem WellPadded.exists_bytes {g : List Group} (h : WellPadded g) :
    ∃ v hash, repackPayload g = .ok (v :: hash) ∧ (packLoop 5 8 g).out = v :: hash := by
  have hbits : (packLoop 5 8 g).bits = g.length * 5 % 8 := packLoop_bits (by decide) g
  have hleft : (packLoop 5 8 g).leftover = 0 := by
    rw [(packLoop_holds 8 g).leftover, hbits]
    exact (bitsValue_mod_two_pow_eq_zero_iff h.allowed.le).2 h.zero
  have hok : repackPayload g = .ok (packLoop 5 8 g).out :=
    (repack_false_eq_ok_iff (by decide) (by decide)).2
      ⟨_, packLoop_bits_lt (by decide) g, paddedBy_packLoop_out hleft⟩
  have hpos := List.length_pos_iff.2 h.nonEmpty
  have hlen := (packLoop_counts g).2
  have hallowed := h.allowed
  obtain ⟨v, hash, hout⟩ := List.exists_cons_of_length_pos (l := (packLoop 5 8 g).out) (by omega)
  exact ⟨v, hash, hout ▸ hok, hout⟩

/-- Where the padding is right the outcome is that of the bytes. -/
theorem WellPadded.outcome_eq {g : List Group} (h : WellPadded g) {v : Byte} {hash : List Byte}
    (hok : repackPayload g = .ok (v :: hash)) : outcome g = dataOutcome v hash := by
  obtain ⟨x, hx⟩ := exists_getLast? h.nonEmpty
  rw [outcome, hx]
  dsimp only
  rw [if_neg (Nat.not_le.2 h.allowed), and_natMask, if_neg (not_not.2 (h.zero x hx)), hok]
  rfl

/-- The three ways in which padding is wrong, each with its outcome, and right padding. -/
theorem outcome_cases (g : List Group) :
    (g = [] ∧ outcome g = .eEmpty) ∨
    (g ≠ [] ∧ 5 ≤ g.length * 5 % 8 ∧ outcome g = .ePadSize) ∨
    (∃ x, g.getLast? = some x ∧ g.length * 5 % 8 < 5 ∧ x.toNat % 2 ^ (g.length * 5 % 8) ≠ 0 ∧
      outcome g = .ePadNonzero) ∨
    WellPadded g := by
  by_cases hne : g = []
  · exact .inl ⟨hne, hne ▸ rfl⟩
  obtain ⟨x, hx⟩ := exists_getLast? hne
  by_cases hbig : 5 ≤ g.length * 5 % 8
  · exact .inr (.inl ⟨hne, hbig, by rw [outcome, hx]; exact if_pos hbig⟩)
  by_cases hzero : x.toNat % 2 ^ (g.length * 5 % 8) = 0
  · exact .inr (.inr (.inr ⟨hne, by omega, fun y hy => Option.some.inj (hx.symm.trans hy) ▸ hzero⟩))
  · refine .inr (.inr (.inl ⟨x, hx, by omega, hzero, ?_⟩))
    rw [outcome, hx]
    dsimp only
    rw [if_neg hbig, and_natMask, if_pos hzero]

/-! #### By the number of groups -/

/-- The groups that carry a version byte and a hash of one of the eight sizes, where less than a group is left over. -/
theorem groups_of_hash_size {n k : Nat} (hleft : n * 5 % 8 < 5) (hcount : n * 5 / 8 = k + 1)
    (hk : k ∈ [20, 24, 28, 32, 40, 48, 56, 64]) :
    (n, k) ∈ [(34, 20), (40, 24), (47, 28), (53, 32), (66, 40), (79, 48), (92, 56), (104, 64)] := by
  simp only [List.mem_cons, List.not_mem_nil, or_false] at hk
  obtain rfl | rfl | rfl | rfl | rfl | rfl | rfl | rfl := hk <;> simp <;> omega

/-- The numbers of groups that leave a whole group's bits over. -/
theorem padding_refused_iff (n : Nat) : n % 8 ∈ [1, 3, 6] ↔ 5 ≤ n * 5 % 8 := by
  have hdigit : ∀ r < 8, r ∈ [1, 3, 6] ↔ 5 ≤ r * 5 % 8 := by decide
  rw [hdigit _ (Nat.mod_lt n (by decide)), Nat.mod_mul_mod]

theorem padding_allowed_iff (n : Nat) : n % 8 ∈ [0, 2, 4, 5, 7] ↔ n * 5 % 8 < 5 := by
  have hdigit : ∀ r < 8, r ∈ [0, 2, 4, 5, 7] ↔ r * 5 % 8 < 5 := by decide
  rw [hdigit _ (Nat.mod_lt n (by decide)), Nat.mod_mul_mod]

/-- A hash of the size that the version byte says, in well-padded groups. -/
theorem WellPadded.groups_of_length_eq {g : List Group} (h : WellPadded g) {v : Byte} {hash : List Byte}
    (hout : (packLoop 5 8 g).out = v :: hash) (hlen : hash.length = (hsize v).toNat) :
    (g.length, hash.length) ∈ [(34, 20), (40, 24), (47, 28), (53, 32), (66, 40), (79, 48), (92, 56), (104, 64)] := by
  have hcount := (packLoop_counts g).2
  rw [hout, List.length_cons] at hcount
  exact groups_of_hash_size h.allowed hcount.symm (hlen ▸ hsize_mem v)

/-- Every version byte and every hash have a payload, by the inverse law of `repack`. -/
theorem exists_payload (v : Byte) (hash : List Byte) :
    ∃ g : List Group, g.length = ((hash.length + 1) * 8 + 4) / 5 ∧ outcome g = dataOutcome v hash := by
  obtain ⟨g, hpad, hok⟩ := repackInverse.1 (v :: hash)
  obtain ⟨hlt, hlast⟩ := (repackInverse.2 g).1 ⟨_, hok, hpad⟩
  obtain ⟨k, hk, hpadded⟩ := (repack_true_eq_ok_iff (by decide) (by decide)).1 hpad
  have hlen : g.length = ((hash.length + 1) * 8 + 4) / 5 := hpadded.length_right hk
  have hne : g ≠ [] := List.length_pos_iff.1 (by omega)
  exact ⟨g, hlen, WellPadded.outcome_eq ⟨hne, hlt, hlast⟩ hok⟩

/-- Some payload succeeds for each of the sixteen version bytes. -/
theorem exists_payload_of_ver {v : Byte} (hv : v.toNat < 16) :
    ∃ g : List Group, g.length = (((hsize v).toNat + 1) * 8 + 4) / 5 ∧ outcome g = .eNone := by
  obtain ⟨g, hlen, hout⟩ := exists_payload v (List.replicate (hsize v).toNat 0)
  rw [List.length_replicate] at hlen
  exact ⟨g, hlen, hout.trans (dataOutcome_eq_eNone hv List.length_replicate)⟩

/-- Some payload succeeds for each of the eight listed numbers of groups. -/
theorem exists_payload_of_count :
    ∀ n ∈ [34, 40, 47, 53, 66, 79, 92, 104], ∃ g : List Group, g.length = n ∧ outcome g = .eNone := by
  have hcount : ∀ n ∈ [34, 40, 47, 53, 66, 79, 92, 104], ∃ i : Fin 8,
      n = (((hsize (BitVec.ofNat 8 i)).toNat + 1) * 8 + 4) / 5 := by decide
  intro n hn
  obtain ⟨i, rfl⟩ := hcount n hn
  exact exists_payload_of_ver (by rw [BitVec.toNat_ofNat]; omega)

/-- Settles O41: wrong padding gives the first three codes, and behind right padding a hash of the size that the version
byte says has a listed number of groups. -/
theorem outcomeByNumberOfGroups : Obligations.OutcomeByNumberOfGroups := by
  refine ⟨fun g => ?_, exists_payload_of_count⟩
  rw [padding_refused_iff, padding_allowed_iff]
  obtain ⟨rfl, hout⟩ | ⟨hne, hbig, hout⟩ | ⟨x, hx, hlt, -, hout⟩ | hpad := outcome_cases g
  case inl => simp [hout]
  case inr.inl =>
    have hpos := List.length_pos_iff.2 hne
    rw [hout]
    exact ⟨by omega, fun _ => rfl, by omega, nofun⟩
  case inr.inr.inl =>
    have hpos : 0 < g.length := List.length_pos_of_mem (List.mem_of_getLast? hx)
    rw [hout]
    exact ⟨by omega, by omega, fun _ _ _ => by simp, nofun⟩
  case inr.inr.inr =>
    obtain ⟨v, hash, hok, hbytes⟩ := hpad.exists_bytes
    have hpos := List.length_pos_iff.2 hpad.nonEmpty
    have hlt := hpad.allowed
    rw [hpad.outcome_eq hok]
    refine ⟨by omega, by omega, fun _ _ hlisted => ?unlisted, fun hok' => ?success⟩
    case unlisted =>
      have hlen : hash.length ≠ (hsize v).toNat := fun hlen =>
        hlisted (List.mem_map_of_mem (f := Prod.fst) (hpad.groups_of_length_eq hbytes hlen))
      obtain hres | hlength := dataOutcome_of_length_ne hlen
      · simp [hres]
      · simp [hlength]
    case success => exact ⟨v, hash, hok, hpad.groups_of_length_eq hbytes (length_of_dataOutcome_eNone hok')⟩

end Sys2Proof.Machine
end

/-! ### Streams of clock edges as lists of commands (30_encoding R45, 43_control R109) -/

section
namespace Sys2Proof.Machine

/-- No command changes whether the block counts as reset. -/
theorem exec_wasReset {i : Instr} {s t : State} (h : exec i s = .next t) : t.wasReset = s.wasReset := by
  by_cases hkind : commandKind i = .push
  · obtain ⟨g, rfl⟩ := (commandKind_eq_push_iff i).1 hkind
    obtain ⟨hwas, -⟩ := pushFrame g s t h
    exact hwas
  · obtain ⟨-, -, hwas, -⟩ := frameOfTheOtherCommands i s t hkind h
    exact hwas

/-- A first command that answers a next state, where the whole list does. -/
theorem exists_of_runCommands_cons {i : Instr} {is : List Instr} {s t : State} (h : runCommands (i :: is) s = .next t) :
    ∃ u, exec i s = .next u ∧ runCommands is u = .next t := by
  rw [runCommands] at h
  split at h
  case h_1 u hu => exact ⟨u, hu, h⟩
  all_goals cases h

theorem runCommands_append {is js : List Instr} {s t : State} (h : runCommands is s = .next t) :
    runCommands (is ++ js) s = runCommands js t := by
  induction is generalizing s with
  | nil =>
    obtain rfl := Host.Outcome.next.inj h
    rfl
  | cons i is ih =>
    obtain ⟨u, hu, hrun⟩ := exists_of_runCommands_cons h
    rw [List.cons_append, runCommands_cons hu, ih hrun]

theorem runEdges_succ {s t : State} (h : step s = .next t) (n : Nat) : runEdges (n + 1) s = runEdges n t := by
  rw [runEdges, h]

theorem ClockEdge.action_of_idle {e : ClockEdge} (hrst : e.rst = false) (hvalid : e.cmdValid = false) :
    e.action = .idle := by
  simp [ClockEdge.action, hrst, hvalid]

/-- An edge without reset and command is passed by. -/
theorem step_of_idle {s : State} {e : ClockEdge} {rest : List ClockEdge} (hedges : s.edges = e :: rest)
    (hrst : e.rst = false) (hvalid : e.cmdValid = false) : step s = .next { s with edges := rest } := by
  rw [step_cons hedges, e.action_of_idle hrst hvalid]

/-- Edges without a reset do what the commands they carry do: NOPs and edges without a command add nothing. -/
theorem runEdges_of_runCommands {stream : List ClockEdge} (rest : List ClockEdge) {s t : State}
    (hreset : s.wasReset = true) (hrst : ∀ e ∈ stream, e.rst = false)
    (hrun : runCommands (commandsOf stream) s = .next t) :
    runEdges stream.length { s with edges := stream ++ rest } = .next { t with edges := rest } := by
  induction stream generalizing s with
  | nil =>
    obtain rfl := Host.Outcome.next.inj hrun
    rfl
  | cons e stream ih =>
    obtain ⟨hrst_e, hrst⟩ := List.forall_mem_cons.1 hrst
    rw [commandsOf] at hrun
    split_ifs at hrun with hvalid hnop
    case pos =>
      have hstep : step { s with edges := e :: stream ++ rest } = exec .nop { s with edges := stream ++ rest } :=
        hnop ▸ step_of_command rfl hreset hrst_e hvalid
      exact (runEdges_succ hstep _).trans (ih hreset hrst hrun)
    case neg =>
      obtain ⟨u, hu, hrun⟩ := exists_of_runCommands_cons hrun
      have hstep : step { s with edges := e :: stream ++ rest } = .next { u with edges := stream ++ rest } :=
        exec_withEdges (stream ++ rest) hu ▸ step_of_command rfl hreset hrst_e hvalid
      exact (runEdges_succ hstep _).trans (ih ((exec_wasReset hu).trans hreset) hrst hrun)
    case neg =>
      have hstep : step { s with edges := e :: stream ++ rest } = .next { s with edges := stream ++ rest } :=
        step_of_idle rfl hrst_e (Bool.not_eq_true _ ▸ hvalid)
      exact (runEdges_succ hstep _).trans (ih hreset hrst hrun)

end Sys2Proof.Machine
end

/-! ### A whole transaction (41_validator R86) -/

section
namespace Sys2Proof.Machine

/-- The registers that the groups leave pass and fail the checks as the groups do. -/
theorem FollowsStream.verdict_eq_outcome {g : List Group} {s : State} (h : FollowsStream g s) :
    verdict s = outcome g := by
  have hnbits : s.nbits.toNat = g.length * 5 % 8 := h.nbits.trans (packLoop_counts g).1
  have hne : s.ne = false ↔ g = [] := by rw [h.ne, Bool.not_eq_false', List.isEmpty_iff]
  have hlast : ∀ x, g.getLast? = some x → s.last = x := fun x hx => by rw [h.last, hx, Option.getD_some]
  rw [verdict_eq, hnbits]
  obtain ⟨hnil, hout⟩ | ⟨hcons, hbig, hout⟩ | ⟨x, hx, hlt, hzero, hout⟩ | hpad := outcome_cases g
  case inl => rw [if_pos (hne.2 hnil), hout]
  case inr.inl => rw [if_neg (mt hne.1 hcons), if_pos hbig, hout]
  case inr.inr.inl =>
    have hcons : g ≠ [] := by rintro rfl; cases hx
    rw [if_neg (mt hne.1 hcons), if_neg (by omega), hlast x hx, if_pos hzero, hout]
  case inr.inr.inr =>
    obtain ⟨x, hx⟩ := exists_getLast? hpad.nonEmpty
    obtain ⟨v, hash, hok, hbytes⟩ := hpad.exists_bytes
    have hver : s.ver = v := by rw [h.ver, hbytes]; rfl
    have hbcnt : s.bcnt.toNat = min (hash.length + 1) 127 := by rw [h.bcnt, hbytes, List.length_cons]
    have h64 := hsize_le v
    have hcount : s.bcnt.toNat ≠ (hsize v).toNat + 1 ↔ hash.length ≠ (hsize v).toNat := by omega
    rw [if_neg (mt hne.1 hpad.nonEmpty), if_neg (Nat.not_le.2 hpad.allowed), hlast x hx,
      if_neg (not_not.2 (hpad.zero x hx)), hver, hpad.outcome_eq hok, dataOutcome]
    simp only [hcount, rsv_eq_one_iff, tsel_toNat]

/-- From any state but FAULT, the commands of a payload are carried out, and END closes the registers they leave. -/
theorem runCommands_payload (g : List Group) {s : State} (h : s.seq ≠ .fault) :
    ∃ t, FollowsStream g t ∧ runCommands (payloadCommands g) s = .next (closePayload t) := by
  obtain ⟨t, hrun, ht⟩ := (FollowsStream.startTransaction s).runPushes g
  refine ⟨t, ht, ?_⟩
  rw [payloadCommands, List.cons_append, runCommands_cons (exec_start_of_ne_fault h), runCommands_append hrun,
    runCommands_cons (exec_finish_of_active ht.seq)]
  rfl

/-- After a success the read port shows the hash, and 0 above it. -/
theorem FollowsStream.rdData_of_success {g : List Group} {s : State} (h : FollowsStream g s) {v : Byte}
    {hash : List Byte} (hbytes : (packLoop 5 8 g).out = v :: hash) (hlen : hash.length = (hsize v).toNat)
    (hverdict : verdict s = .eNone) (a : ReadAddr) : rdData (closePayload s) a = hash.getD a.toNat 0 := by
  have hver : (closePayload s).ver = v := by rw [closePayload_ver, h.ver, hbytes]; rfl
  have hok : (closePayload s).ok = true := (State.ok_iff _).2 ⟨rfl, hverdict⟩
  rw [List.getD_eq_getElem?_getD]
  rcases Nat.lt_or_ge a.toNat hash.length with ha | ha
  · have hread : hashRead (closePayload s).hash a.toNat = some hash[a.toNat] :=
      h.hash a.toNat a.isLt _ (by rw [hbytes, List.getElem?_cons_succ, List.getElem?_eq_getElem ha])
    rw [rdData_of_open hok (by rw [hver]; omega), hashByte_of_written hread, List.getElem?_eq_getElem ha,
      Option.getD_some]
  · rw [rdData_of_closed (by rw [hver]; omega), List.getElem?_eq_none ha, Option.getD_none]

/-- A payload that succeeds is well padded. -/
theorem wellPadded_of_outcome_eNone {g : List Group} (h : outcome g = .eNone) : WellPadded g := by
  obtain ⟨-, hout⟩ | ⟨-, -, hout⟩ | ⟨-, -, -, -, hout⟩ | hpad := outcome_cases g
  case inr.inr.inr => exact hpad
  all_goals cases hout.symm.trans h

/-- After a success the outputs show the bytes of the payload. -/
theorem FollowsStream.outputs_of_success {g : List Group} {s : State} (h : FollowsStream g s)
    (hnone : outcome g = .eNone) :
    ∃ v hash, repackPayload g = .ok (v :: hash) ∧ (closePayload s).outputs.ok = 1 ∧ (closePayload s).outputs.ver = v ∧
      (closePayload s).outputs.atype.toNat = (tsel v).toNat ∧ (closePayload s).outputs.hsize = hsize v ∧
      (hsize v).toNat = hash.length ∧ ∀ a, rdData (closePayload s) a = hash.getD a.toNat 0 := by
  have hpad := wellPadded_of_outcome_eNone hnone
  obtain ⟨v, hash, hok, hbytes⟩ := hpad.exists_bytes
  have hlen := length_of_dataOutcome_eNone ((hpad.outcome_eq hok).symm.trans hnone)
  have hverdict : verdict s = .eNone := h.verdict_eq_outcome.trans hnone
  have hver : s.ver = v := by rw [h.ver, hbytes]; rfl
  have hlt : v.toNat < 16 := hver ▸ ver_lt_of_verdict_eNone hverdict
  obtain ⟨-, -, -, -, hgate, hopen, -⟩ := outputsAreGated (closePayload s) 0
  have hok1 := hgate.2 ⟨rfl, hverdict⟩
  obtain ⟨hverPort, hatype, hsizePort, -⟩ := hopen hok1
  rw [closePayload_ver, hver] at hverPort hatype hsizePort
  refine ⟨v, hash, hok, hok1, hverPort, ?_, hsizePort, hlen.symm, h.rdData_of_success hbytes hlen hverdict⟩
  rw [hatype, tsel_toNat]
  omega

/-- After an error the outputs are held at 0. -/
theorem outputs_of_error {s : State} (h : verdict s ≠ .eNone) :
    (closePayload s).outputs.ok = 0 ∧ (closePayload s).outputs.ver = 0 ∧ (closePayload s).outputs.atype = 0 ∧
      (closePayload s).outputs.hsize = 0 ∧ ∀ a, rdData (closePayload s) a = 0 := by
  have hnot : ¬ (closePayload s).ok = true := fun hok => h ((State.ok_iff _).1 hok).2
  exact ⟨(wire_eq_zero_iff _).2 (Bool.not_eq_true _ ▸ hnot), if_neg hnot, if_neg hnot, if_neg hnot,
    fun a => rdData_of_closed fun hopen => hnot hopen.1⟩

/-- Settles O43: the edges do what the payload's commands do, and END's verdict is the outcome of the groups. -/
theorem transactionLaw : Obligations.TransactionLaw := by
  intro g s stream rest hreset hseq hedges hrst hcommands
  obtain ⟨t, ht, hrun⟩ := runCommands_payload g hseq
  have hedgesRun := runEdges_of_runCommands rest hreset hrst (hcommands ▸ hrun)
  rw [← hedges] at hedgesRun
  have hverdict : verdict t = outcome g := ht.verdict_eq_outcome
  exact ⟨_, hedgesRun, rfl, rfl, hverdict, ht.outputs_of_success, fun hfail => outputs_of_error (hverdict ▸ hfail)⟩

end Sys2Proof.Machine
end

/-! ### The version byte (30_encoding R50 to R53, 42_version_byte R90 to R96) -/

section
namespace Sys2Proof.Machine

theorem ssel_toNat (v : Byte) : (ssel v).toNat = v.toNat % 8 := by
  rw [ssel, BitVec.extractLsb'_toNat, Nat.shiftRight_zero]

/-- Settles O30: each field is a digit of the byte, and the three are all its digits. -/
theorem versionByteFields : Obligations.VersionByteFields := by
  intro v
  have hv : v.toNat < 256 := v.isLt
  rw [rsv_toNat, tsel_toNat, ssel_toNat]
  exact ⟨rfl, rfl, rfl, by omega⟩

/-- `hsize` reads the size selector alone (42_version_byte R92). -/
theorem hsize_toNat_of_ssel (v : Byte) :
    (hsize v).toNat = (20 + 4 * ((ssel v).toNat % 4)) * (if (ssel v).toNat / 4 % 2 = 1 then 2 else 1) := by
  have hlow : v.toNat % 8 % 4 = v.toNat % 4 := by omega
  have hbit : v.toNat % 8 / 4 % 2 = v.toNat / 4 % 2 := by omega
  rw [ssel_toNat, hlow, hbit, hsize_toNat]

/-- Settles O31: the low three bits are the size selector, which is all that `hsize` reads. -/
theorem hashSizeFormula : Obligations.HashSizeFormula := by
  refine fun v => ⟨hsize_toNat v, BitVec.eq_of_toNat_eq ?_, hsize_le v⟩
  have hand : (v &&& 7).toNat = v.toNat % 8 := Nat.and_two_pow_sub_one_eq_mod v.toNat 3
  rw [hsize_toNat_of_ssel, hsize_toNat_of_ssel, ssel_toNat (v &&& 7), hand, Nat.mod_mod, ← ssel_toNat]

/-- The size selector is the place of the size in the list of sizes (30_encoding R52). -/
theorem hashSizes_getElem?_ssel (v : Byte) : Config.hashSizes[(ssel v).toNat]? = some (hsize v).toNat := by
  have hplace : ∀ i < 8, Config.hashSizes[i]? = some ((20 + 4 * (i % 4)) * (if i / 4 % 2 = 1 then 2 else 1)) := by
    decide
  rw [hplace _ (ssel v).isLt, hsize_toNat_of_ssel]

theorem hashSizes_nodup : Config.hashSizes.Nodup := by decide

theorem ssel_lt_length_hashSizes (v : Byte) : (ssel v).toNat < Config.hashSizes.length := (ssel v).isLt

/-- Settles O32: the sizes are listed once each, so a size has one place in the list. -/
theorem hashSizeIsABijection : Obligations.HashSizeIsABijection := by
  refine ⟨fun v w h => BitVec.eq_of_toNat_eq ?_, hashSizes_getElem?_ssel, rfl⟩
  rw [← List.getElem?_inj (ssel_lt_length_hashSizes v) hashSizes_nodup]
  rw [hashSizes_getElem?_ssel, hashSizes_getElem?_ssel, h]

end Sys2Proof.Machine
end

/-! ### Decoding the version byte (42_version_byte R91, R93, R94) -/

section
namespace Sys2Proof.Machine

theorem AddressType.number_inj {t u : AddressType} : t.number = u.number ↔ t = u := by
  cases t <;> cases u <;> decide

theorem vdec_of_reserved {v : Byte} (h : 128 ≤ v.toNat) : vdec v = .error .reserved := by
  rw [vdec, if_pos ((rsv_eq_one_iff v).2 h)]

theorem decodeType_eq_none {v : Byte} (h : 2 ≤ (tsel v).toNat) : decodeType v = none := by
  have hne : ∀ k : BitVec 4, k.toNat < 2 → tsel v ≠ k := by
    rintro k hk rfl
    omega
  rw [decodeType, if_neg (hne 0 (by decide)), if_neg (hne 1 (by decide))]

theorem vdec_of_unknownType {v : Byte} (hlo : 16 ≤ v.toNat) (hhi : v.toNat < 128) : vdec v = .error .unknownType := by
  rw [vdec, if_neg (by rw [rsv_eq_one_iff]; omega), decodeType_eq_none (by rw [tsel_toNat]; omega)]

/-- The bytes that decode are the sixteen that have a type's number above the size selector. -/
theorem vdec_eq_ok_iff {v : Byte} {t : AddressType} {n : BitVec 7} :
    vdec v = .ok (t, n) ↔ v.toNat / 8 = t.number.toNat ∧ hsize v = n := by
  have ht : t.number.toNat < 2 := t.number.isLt
  by_cases hlt : v.toNat < 16
  · obtain ⟨u, hu, hnumber⟩ := vdec_of_lt hlt
    have hdigit : v.toNat / 8 = u.number.toNat := by rw [hnumber, tsel_toNat]; omega
    rw [hu, Except.ok.injEq, Prod.mk.injEq, hdigit, BitVec.toNat_inj, AddressType.number_inj]
  · refine iff_of_false ?_ (by omega)
    by_cases hres : 128 ≤ v.toNat
    · rw [vdec_of_reserved hres]; exact nofun
    · rw [vdec_of_unknownType (by omega) (by omega)]; exact nofun

/-- Settles O33: below 16 the byte's bit 3 is the number of the type. -/
theorem versionByteDecode : Obligations.VersionByteDecode := by
  refine fun v => ⟨vdec_of_reserved, vdec_of_unknownType, fun hlo hhi => ?script, fun hlt => ?pubKey⟩
  case script => exact vdec_eq_ok_iff.2 ⟨show v.toNat / 8 = 1 by omega, rfl⟩
  case pubKey => exact vdec_eq_ok_iff.2 ⟨show v.toNat / 8 = 0 by omega, rfl⟩

theorem vbErr_toNat (v : Byte) :
    (vbErr v).toNat = if 128 ≤ v.toNat then 1 else if 16 ≤ v.toNat then 2 else 0 := by
  by_cases hres : 128 ≤ v.toNat
  · rw [vbErr, if_pos ((rsv_eq_one_iff v).2 hres), if_pos hres]
    rfl
  · have htype : 2 ≤ (tsel v).toNat ↔ 16 ≤ v.toNat := by rw [tsel_toNat]; omega
    rw [vbErr, if_neg (mt (rsv_eq_one_iff v).1 hres), if_neg hres]
    simp only [htype]
    split_ifs <;> rfl

theorem vbErr_eq_zero_iff (v : Byte) : vbErr v = 0 ↔ v.toNat < 16 := by
  have hzero : (0 : BitVec 2).toNat = 0 := rfl
  rw [← BitVec.toNat_inj, vbErr_toNat, hzero]
  split_ifs
  · exact iff_of_false not_false (by omega)
  · exact iff_of_false not_false (by omega)
  · exact iff_of_true rfl (by omega)

theorem vbType_toNat (v : Byte) : (vbType v).toNat = if v.toNat < 16 then v.toNat / 8 else 0 := by
  rw [vbType]
  simp only [vbErr_eq_zero_iff]
  split_ifs with hlt
  · rw [BitVec.extractLsb'_toNat, Nat.shiftRight_eq_div_pow]
    omega
  · rfl

/-- Settles O34: the port shows the fields and the size of its input, and the two outputs on its decode. -/
theorem decoderPort : Obligations.DecoderPort := fun v =>
  ⟨rsv_toNat v, tsel_toNat v, ssel_toNat v, hsize_toNat v, vbErr_toNat v, vbType_toNat v⟩

end Sys2Proof.Machine
end

/-! ### Encoding the version byte (42_version_byte R98, R99) -/

section
namespace Sys2Proof.Machine

/-- The type and the place of the size, side by side in the byte. -/
theorem typeAndPlace_toNat (t : AddressType) :
    ∀ i < 8, ((t.number.setWidth 8 <<< 3) ||| BitVec.ofNat 8 i).toNat = t.number.toNat * 8 + i := by
  cases t <;> decide

/-- A size of the list is encoded by its place. -/
theorem venc_of_getElem? {t : AddressType} {n i : Nat} (h : Config.hashSizes[i]? = some n) :
    ∃ v, venc t n = some v ∧ v.toNat = t.number.toNat * 8 + i := by
  obtain ⟨hi, rfl⟩ := List.getElem?_eq_some_iff.1 h
  refine ⟨_, if_pos (List.getElem_mem hi), ?_⟩
  rw [hashSizes_nodup.idxOf_getElem]
  exact typeAndPlace_toNat t i hi

/-- The byte of a type and a size is the one that has the type's number above the selector of the size. -/
theorem venc_eq_some_iff {t : AddressType} {n : Nat} {v : Byte} :
    venc t n = some v ↔ v.toNat / 8 = t.number.toNat ∧ (hsize v).toNat = n := by
  constructor
  · intro h
    have hn : n ∈ Config.hashSizes := (venc_isSome_iff t n).1 (Option.isSome_iff_exists.2 ⟨v, h⟩)
    obtain ⟨i, hi⟩ := List.mem_iff_getElem?.1 hn
    have hlt : i < 8 := (List.getElem?_eq_some_iff.1 hi).1
    obtain ⟨w, hw, hnat⟩ := venc_of_getElem? (t := t) hi
    obtain rfl : v = w := Option.some.inj (h.symm.trans hw)
    have hplace : (ssel v).toNat = i := by rw [ssel_toNat]; omega
    exact ⟨by omega, Option.some.inj ((hashSizes_getElem?_ssel v).symm.trans (hplace ▸ hi))⟩
  · rintro ⟨htype, rfl⟩
    obtain ⟨w, hw, hnat⟩ := venc_of_getElem? (t := t) (hashSizes_getElem?_ssel v)
    rw [ssel_toNat] at hnat
    rw [hw, BitVec.eq_of_toNat_eq (show w.toNat = v.toNat by omega)]

/-- `venc` gives the bytes that `vdec` takes back (42_version_byte R99). -/
theorem venc_eq_some_iff_vdec {t : AddressType} {n : BitVec 7} {v : Byte} :
    venc t n.toNat = some v ↔ vdec v = .ok (t, n) := by
  rw [venc_eq_some_iff, vdec_eq_ok_iff, BitVec.toNat_inj]

theorem exists_venc (t : AddressType) {n : Nat} (h : n ∈ [20, 24, 28, 32, 40, 48, 56, 64]) :
    ∃ v, venc t n = some v ∧ v.toNat / 8 = t.number.toNat ∧ (hsize v).toNat = n := by
  obtain ⟨v, hv⟩ := Option.isSome_iff_exists.1 ((venc_isSome_iff t n).2 h)
  exact ⟨v, hv, venc_eq_some_iff.1 hv⟩

/-- Settles O35: the byte's low three bits are the selector of its size, the place in the list. -/
theorem versionByteEncode : Obligations.VersionByteEncode := by
  refine ⟨fun t n hn => ?size, fun t n hn => ?error⟩
  case size =>
    obtain ⟨v, hv, htype, rfl⟩ := exists_venc t hn
    exact ⟨v, hv, htype, ssel_toNat v ▸ hashSizes_getElem?_ssel v⟩
  case error => exact Option.not_isSome_iff_eq_none.1 (mt (venc_isSome_iff t n).1 hn)

/-- Settles O36: `vdec` and `venc` relate a byte to the same type and size. -/
theorem versionByteRoundTrip : Obligations.VersionByteRoundTrip := by
  refine ⟨fun t n hn => ?encoded, fun v t n => venc_eq_some_iff_vdec.2⟩
  obtain ⟨v, hv, htype, rfl⟩ := exists_venc t hn
  have ht : t.number.toNat < 2 := t.number.isLt
  exact ⟨v, hv, by omega, vdec_eq_ok_iff.2 ⟨htype, by simp⟩⟩

end Sys2Proof.Machine
end

/-! ### The commands of ADDRESS (30_encoding R56, 42_version_byte R99) -/

section
namespace Sys2Proof.Machine

/-- PUSHBYTES pushes a payload that the block unpacks to the same bytes, by the inverse law of `repack`. -/
theorem exists_pushBytes_payload (v : Byte) (hash : List Byte) :
    ∃ g : List Group, pushBytes (v :: hash) = .ok (g.map .push) ∧ repackPayload g = .ok (v :: hash) ∧
      outcome g = dataOutcome v hash := by
  obtain ⟨g, hpad, hok⟩ := repackInverse.1 (v :: hash)
  obtain ⟨hallowed, hzero⟩ := (repackInverse.2 g).1 ⟨_, hok, hpad⟩
  have hne : g ≠ [] := by
    rintro rfl
    cases hok
  exact ⟨g, pushBytes_of_repack hpad, hok, WellPadded.outcome_eq ⟨hne, hallowed, hzero⟩ hok⟩

/-- Settles O45: ADDRESS is the transaction of a payload that succeeds, its bytes the version byte and the hash. -/
theorem addressRoundTrip : Obligations.AddressRoundTrip := by
  intro ty hash s hsizes hseq
  obtain ⟨v, hv, htype, hlen⟩ := exists_venc ty hsizes
  have hty : ty.number.toNat < 2 := ty.number.isLt
  obtain ⟨g, hpush, hbytes, hout⟩ := exists_pushBytes_payload v hash
  obtain ⟨t, ht, hrun⟩ := runCommands_payload g hseq
  obtain ⟨v', hash', hbytes', hok, -, hatype, hsizePort, -, hread⟩ :=
    ht.outputs_of_success (hout.trans (dataOutcome_eq_eNone (by omega) hlen.symm))
  obtain ⟨rfl, rfl⟩ := List.cons.inj (Except.ok.inj (hbytes.symm.trans hbytes'))
  refine ⟨_, _, addressCommands_of_venc_some hv hpush, hrun, hok, BitVec.eq_of_toNat_eq ?atype, ?size, hread⟩
  case atype => rw [hatype, tsel_toNat]; omega
  case size => rw [hsizePort, hlen]

end Sys2Proof.Machine
end

/-! ### Control: NOP, reserved words, FAULT and the sequencer's table (43_control R105 to R109) -/

section
namespace Sys2Proof.Machine

/-- Settles O7: the word `00` is NOP's, and NOP answers the state it was given. -/
theorem nopChangesNothing : Obligations.NopChangesNothing :=
  ⟨rfl, fun _ => rfl⟩

/-- Settles O3, by induction on the edges: each is passed by. -/
theorem idleEdgesChangeNothing : Obligations.IdleEdgesChangeNothing := by
  intro idle
  induction idle with
  | nil =>
    rintro s rest rfl -
    rfl
  | cons e idle ih =>
    intro s rest hedges hidle
    obtain ⟨⟨hrst, hvalid⟩, hidle⟩ := List.forall_mem_cons.1 hidle
    exact (runEdges_succ (step_of_idle hedges hrst hvalid) _).trans (ih _ rest rfl hidle)

/-! #### Commands by the columns of the table -/

/-- The four commands, and the reserved rows by their column. -/
theorem instr_cases (i : Instr) :
    i = .nop ∨ i = .start ∨ (∃ g, i = .push g) ∨ i = .finish ∨ commandKind i = .reserved := by
  cases i <;> simp [commandKind]

theorem exec_of_reserved {i : Instr} (h : commandKind i = .reserved) (s : State) :
    exec i s = .next (reservedWord s) := by
  obtain ⟨rfl, -⟩ | ⟨rfl, -⟩ | ⟨g, rfl, -⟩ | ⟨rfl, -⟩ | heq := exec_cases i s
  case inr.inr.inr.inr => exact heq
  all_goals cases h

theorem exec_reserved_of_ne_fault {i : Instr} {s : State} (h : commandKind i = .reserved) (hseq : s.seq ≠ .fault) :
    exec i s = .next (raiseFault .fCmd s) := by
  rw [exec_of_reserved h, reservedWord, unlessFault_of_ne hseq]

/-- FAULT ignores every command: each is gated against it. -/
theorem exec_of_fault (i : Instr) {s : State} (h : s.seq = .fault) : exec i s = .next s := by
  obtain ⟨-, heq⟩ | ⟨-, heq⟩ | ⟨g, -, heq⟩ | ⟨-, heq⟩ | heq := exec_cases i s
  · exact heq
  · rw [heq, unlessFault_of_fault h]
  · rw [heq, onlyActive_of_fault h]
  · rw [heq, onlyActive_of_fault h]
  · rw [heq, reservedWord, unlessFault_of_fault h]

/-- Settles O16: the reserved rows share one effect, and the decoder answers one of them for the words left over. -/
theorem reservedWordRaisesCommandFault : Obligations.ReservedWordRaisesCommandFault := by
  refine ⟨fun i s => exec_reserved_of_ne_fault, fun i s _ => exec_of_fault i, fun w hw => ?words, rfl⟩
  obtain ⟨-, -, -, -, hreserved⟩ := decodeProcedure w
  refine hreserved ⟨by omega, fun ⟨hzero, hop⟩ => ?_⟩
  simp only [List.mem_cons, List.not_mem_nil, or_false] at hop
  omega

/-! #### Reset leaves FAULT, and nothing else does -/

theorem step_of_reset {s : State} {e : ClockEdge} {rest : List ClockEdge} (hedges : s.edges = e :: rest)
    (hrst : e.rst = true) : step s = .next (resetRegisters { s with edges := rest }) := by
  rw [step_cons hedges, ClockEdge.action, if_pos hrst]

/-- Settles O18: a step in FAULT passes its edge by, resets, or carries out a command, which FAULT ignores. -/
theorem faultIsLeftByResetOnly : Obligations.FaultIsLeftByResetOnly := by
  refine ⟨fun i s => exec_of_fault i,
    fun s t e rest hseq hedges hstep => ⟨fun hrst => ?stays, fun hrst => ?leaves⟩⟩
  case stays =>
    obtain rfl | ⟨e', rest', hedges', hcase⟩ := step_cases_edge hstep
    · rw [hedges, List.tail_cons]
    · obtain ⟨rfl, rfl⟩ := List.cons.inj (hedges.symm.trans hedges')
      obtain ⟨hrst', -⟩ | ⟨-, -, -, hexec⟩ := hcase
      · exact absurd hrst' (by simp [hrst])
      · exact Host.Outcome.next.inj (hexec.symm.trans (exec_of_fault _ hseq))
  case leaves =>
    obtain rfl := Host.Outcome.next.inj ((step_of_reset hedges hrst).symm.trans hstep)
    exact ⟨rfl, rfl⟩

/-! #### The sequencer's table (43_control R107) -/

theorem Seq.eq_active {q : Seq} (hfault : q ≠ .fault) (hother : ¬ (q = .idle ∨ q = .done)) : q = .active := by
  cases q <;> simp_all

theorem sequencerTable_fault (k : CommandKind) : sequencerTable .fault k = .fault := rfl

theorem sequencerTable_nop (q : Seq) : sequencerTable q .nop = q := by cases q <;> rfl

theorem sequencerTable_start {q : Seq} (h : q ≠ .fault) : sequencerTable q .start = .active := by
  cases q with
  | idle | active | done => rfl
  | fault => exact absurd rfl h

theorem sequencerTable_reserved (q : Seq) : sequencerTable q .reserved = .fault := by cases q <;> rfl

/-- What only ACTIVE carries out is a fault of the protocol in IDLE and DONE. -/
theorem sequencerTable_of_idle_or_done {q : Seq} {k : CommandKind} (hq : q = .idle ∨ q = .done)
    (hk : k = .push ∨ k = .finish) : sequencerTable q k = .fault := by
  obtain rfl | rfl := hq <;> obtain rfl | rfl := hk <;> rfl

theorem exec_of_idle_or_done {i : Instr} {s : State} (hseq : s.seq = .idle ∨ s.seq = .done)
    (hkind : commandKind i = .push ∨ commandKind i = .finish) : exec i s = .next (raiseFault .fSeq s) := by
  obtain rfl | rfl | ⟨g, rfl⟩ | rfl | hres := instr_cases i
  case inr.inr.inl => exact exec_push_of_idle_or_done g hseq
  case inr.inr.inr.inl => exact exec_finish_of_idle_or_done hseq
  case inr.inr.inr.inr => simp [hres] at hkind
  all_goals simp [commandKind] at hkind

theorem verdict_code_le (s : State) : (verdict s).code.toNat ≤ 6 := by
  rw [verdict_code_toNat]
  omega

/-- Settles O17, row by row: FAULT, the breaches of IDLE and DONE, and what is left of each column. -/
theorem sequencerFollowsItsTable : Obligations.SequencerFollowsItsTable := by
  refine ⟨fun i s => ?row, fun i s => exec_of_idle_or_done,
    fun s e rest hedges hrst => ⟨_, step_of_reset hedges hrst, rfl⟩, rfl, rfl, rfl, rfl, rfl, rfl⟩
  by_cases hfault : s.seq = .fault
  · exact ⟨s, exec_of_fault i hfault, by rw [hfault, sequencerTable_fault], by simp [hfault]⟩
  by_cases hbreach : (s.seq = .idle ∨ s.seq = .done) ∧ (commandKind i = .push ∨ commandKind i = .finish)
  · obtain ⟨hseq, hkind⟩ := hbreach
    refine ⟨raiseFault .fSeq s, exec_of_idle_or_done hseq hkind,
      (sequencerTable_of_idle_or_done hseq hkind).symm, ?_⟩
    obtain hseq | hseq := hseq <;> obtain hkind | hkind := hkind <;> simp [hseq, hkind]
  have hactive : commandKind i = .push ∨ commandKind i = .finish → s.seq = .active := fun hkind =>
    Seq.eq_active hfault fun hseq => hbreach ⟨hseq, hkind⟩
  obtain rfl | rfl | ⟨g, rfl⟩ | rfl | hres := instr_cases i
  · exact ⟨s, rfl, (sequencerTable_nop _).symm, by simp [commandKind]⟩
  · exact ⟨startTransaction s, exec_start_of_ne_fault hfault, (sequencerTable_start hfault).symm,
      by simp [hfault, commandKind, Err.code]⟩
  · have hact : s.seq = .active := hactive (.inl rfl)
    exact ⟨pushGroup g s, exec_push_of_active g hact, by simp [hact, commandKind, sequencerTable],
      by simp [hact, commandKind]⟩
  · have hact : s.seq = .active := hactive (.inr rfl)
    exact ⟨closePayload s, exec_finish_of_active hact, by simp [hact, commandKind, sequencerTable],
      by simp [hact, commandKind, verdict_code_le]⟩
  · exact ⟨raiseFault .fCmd s, exec_reserved_of_ne_fault hres hfault,
      by rw [hres, sequencerTable_reserved, raiseFault_seq], by simp [hfault, hres, raiseFault, takeEvent]⟩

end Sys2Proof.Machine
end

/-! ### The block has no halt (60_exceptions R132) -/

section
namespace Sys2Proof.Machine

theorem exists_exec_next (i : Instr) (s : State) : ∃ t, exec i s = .next t :=
  let ⟨rows, _⟩ := sequencerFollowsItsTable
  (rows i s).imp fun _ ⟨hexec, _⟩ => hexec

/-- Settles O6: every command answers, and an edge resets, passes by, or carries a command that keeps `wasReset`. -/
theorem everyStateAcceptsACommand : Obligations.EveryStateAcceptsACommand := by
  refine ⟨exists_exec_next, fun s hreset => ?step⟩
  cases hedges : s.edges with
  | nil => exact ⟨s, step_nil hedges, hreset⟩
  | cons e rest =>
    rw [step_cons hedges]
    cases e.action with
    | reset => exact ⟨_, rfl, resetRegisters_wasReset _⟩
    | idle => exact ⟨_, rfl, hreset⟩
    | command w =>
      obtain ⟨t, hexec⟩ := exists_exec_next (decode w) { s with edges := rest }
      exact ⟨t, (if_pos hreset).trans hexec, (exec_wasReset hexec).trans hreset⟩

end Sys2Proof.Machine
end

/-! ### Errors: END in ACTIVE raises them, and nothing else does (60_exceptions R116, R120) -/

section
namespace Sys2Proof.Machine

/-- A failing check makes the verdict the code of the first one that fails. -/
theorem exists_first_failingCheck {s : State} (h : true ∈ failingChecks s) :
    ∃ c < 6, (failingChecks s)[c]? = some true ∧ (∀ d < c, (failingChecks s)[d]? = some false) ∧
      (verdict s).code.toNat = c + 1 := by
  have hc : (failingChecks s).findIdx id < 6 := List.findIdx_lt_length_of_exists ⟨true, h, rfl⟩
  obtain ⟨hfails, hbefore⟩ := (findIdx_id_eq_iff (l := failingChecks s) hc).1 rfl
  exact ⟨_, hc, hfails, hbefore, by rw [verdict_code_toNat]; omega⟩

/-- Settles O14: END answers `closePayload`, whose ERR is the first failing check's code and so keeps `ok` at 0. -/
theorem errorEntryHidesTheResults : Obligations.ErrorEntryHidesTheResults := by
  intro s hact hfails
  have hfirst := exists_first_failingCheck hfails
  have herr : verdict s ≠ .eNone := by
    obtain ⟨c, -, -, -, hcode⟩ := hfirst
    intro hnone
    rw [hnone] at hcode
    exact absurd hcode (Nat.succ_ne_zero c).symm
  exact ⟨closePayload s, exec_finish_of_active hact, rfl, herr, hfirst, rfl, rfl, outputs_of_error herr⟩

/-- If ERR differs between `s` and `t`, `t` holds none of the error codes 1 to 6. -/
def RaisesNoError (s t : State) : Prop := t.err = s.err ∨ t.err.code = 0 ∨ 6 < t.err.code.toNat

theorem RaisesNoError.refl (s : State) : RaisesNoError s s := .inl rfl

theorem RaisesNoError.startTransaction (s : State) : RaisesNoError s (startTransaction s) := .inr (.inl rfl)

theorem RaisesNoError.pushGroup (g : Group) (s : State) : RaisesNoError s (pushGroup g s) := .inl (pushGroup_err g s)

theorem RaisesNoError.raiseFault {e : Err} (he : e = .fCmd ∨ e = .fSeq) (s : State) :
    RaisesNoError s (raiseFault e s) :=
  have hcode : 6 < e.code.toNat := by obtain rfl | rfl := he <;> decide
  .inr (.inr hcode)

/-- A command raises no error, but for END in ACTIVE. -/
theorem exec_raisesNoError {i : Instr} {s t : State} (h : exec i s = .next t) :
    (i = .finish ∧ s.seq = .active) ∨ RaisesNoError s t := by
  have hbreach : RaisesNoError s (raiseFault .fSeq s) := .raiseFault (.inr rfl) s
  obtain ⟨-, heq⟩ | ⟨-, heq⟩ | ⟨g, -, heq⟩ | ⟨rfl, heq⟩ | heq := exec_cases i s <;>
    obtain rfl := Host.Outcome.next.inj (heq.symm.trans h)
  · exact .inr (.refl s)
  · exact .inr (unlessFault_keeps (.refl s) fun _ => .startTransaction s)
  · exact .inr (onlyActive_keeps (.refl s) (fun _ => .pushGroup g s) hbreach)
  · by_cases hact : s.seq = .active
    · exact .inl ⟨rfl, hact⟩
    · exact .inr (onlyActive_keeps (.refl s) (fun h => absurd h hact) hbreach)
  · exact .inr (unlessFault_keeps (.refl s) fun _ => .raiseFault (.inl rfl) s)

/-- Settles O21: no other command raises an error, and END in ACTIVE answers `closePayload`. -/
theorem onlyEndRaisesErrors : Obligations.OnlyEndRaisesErrors := by
  intro i s t hexec hne hlo hhi
  obtain ⟨rfl, hact⟩ | hsame | hzero | hhigh := exec_raisesNoError hexec
  · obtain rfl := Host.Outcome.next.inj ((exec_finish_of_active hact).symm.trans hexec)
    exact ⟨rfl, hact, closePayload_seq s⟩
  · exact absurd hsame hne
  · simp [hzero] at hlo
  · omega

end Sys2Proof.Machine
end

/-! ### Faults: the breaches of the protocol (60_exceptions R124, R125) -/

section
namespace Sys2Proof.Machine

/-- The fault a command of the column raises where it is not legal (60_exceptions R124). -/
def breachFault (k : CommandKind) : Err := if k = .reserved then .fCmd else .fSeq

theorem breachFault_code_toNat (k : CommandKind) :
    (breachFault k).code.toNat = if k = .reserved then 8 else 9 := by
  rw [breachFault]; split_ifs <;> rfl

/-- The breaches of the protocol, read off the sequencer's table. -/
theorem legalIn_eq_false_iff {q : Seq} (hq : q ≠ .fault) (k : CommandKind) :
    legalIn q k = false ↔ k = .reserved ∨ ((k = .push ∨ k = .finish) ∧ (q = .idle ∨ q = .done)) := by
  revert hq; cases q <;> cases k <;> decide

/-- A breach raises its fault. -/
theorem exec_of_breach {i : Instr} {s : State} (hlegal : legalIn s.seq (commandKind i) = false)
    (hseq : s.seq ≠ .fault) : exec i s = .next (raiseFault (breachFault (commandKind i)) s) := by
  obtain hres | ⟨hkind, hother⟩ := (legalIn_eq_false_iff hseq _).1 hlegal
  · rw [exec_reserved_of_ne_fault hres hseq, breachFault, if_pos hres]
  · have hres : commandKind i ≠ .reserved := by obtain h | h := hkind <;> simp [h]
    rw [exec_of_idle_or_done hother hkind, breachFault, if_neg hres]

/-- A command leads into FAULT exactly when it is not legal. -/
theorem safe_of_exec {i : Instr} {s t : State} (h : exec i s = .next t) :
    t.safe = legalIn s.seq (commandKind i) := by
  obtain ⟨rows, -⟩ := sequencerFollowsItsTable
  obtain ⟨t', hexec, hseq, -⟩ := rows i s
  obtain rfl := Host.Outcome.next.inj (hexec.symm.trans h)
  rw [State.safe, hseq, legalIn]

/-- Settles O19: FAULT is entered by the commands that are not legal, and those are the breaches. -/
theorem faultsAreProtocolBreaches : Obligations.FaultsAreProtocolBreaches := by
  refine ⟨fun i s hseq => ?entry, fun e => by cases e <;> decide⟩
  obtain ⟨t, hexec⟩ := exists_exec_next i s
  have hsafe := safe_of_exec hexec
  refine ⟨t, hexec, hsafe ▸ legalIn_eq_false_iff hseq _, by rw [hsafe], fun hfault => ?code⟩
  obtain rfl := Host.Outcome.next.inj ((exec_of_breach (hsafe ▸ hfault) hseq).symm.trans hexec)
  exact breachFault_code_toNat _

/-- While `ok` is 0 every result output and every read address reads 0 (10_state R24). -/
theorem results_of_ok_eq_zero {s : State} (h : s.outputs.ok = 0) :
    s.outputs.ver = 0 ∧ s.outputs.atype = 0 ∧ s.outputs.hsize = 0 ∧ ∀ a, rdData s a = 0 := by
  have hclosed (a : ReadAddr) :
      s.outputs.ver = 0 ∧ s.outputs.atype = 0 ∧ s.outputs.hsize = 0 ∧ rdData s a = 0 := by
    obtain ⟨-, -, -, -, -, -, hgate⟩ := outputsAreGated s a
    exact hgate h
  obtain ⟨hver, hatype, hhsize, -⟩ := hclosed 0
  refine ⟨hver, hatype, hhsize, fun a => ?_⟩
  obtain ⟨-, -, -, hread⟩ := hclosed a
  exact hread

/-- Settles O20: a breach answers `raiseFault`; in FAULT `ok` is 0, which closes every result, and every command is
ignored. -/
theorem faultEntryHidesTheResults : Obligations.FaultEntryHidesTheResults := by
  intro i s hlegal hseq
  have hok : (raiseFault (breachFault (commandKind i)) s).outputs.ok = 0 := rfl
  obtain ⟨hver, hatype, hhsize, hread⟩ := results_of_ok_eq_zero hok
  exact ⟨raiseFault (breachFault (commandKind i)) s, exec_of_breach hlegal hseq, rfl, breachFault_code_toNat _, rfl, rfl,
    hok, hver, hatype, hhsize, hread, fun j => exec_of_fault j rfl⟩

end Sys2Proof.Machine
end

/-! ### Reset, and what a transaction shows of the past (70_reset_and_hazards R135, R138) -/

section
namespace Sys2Proof.Machine

/-- The outputs read STATE, ERR and VER only (10_state R24). -/
theorem State.outputs_congr {s t : State} (hseq : s.seq = t.seq) (herr : s.err = t.err) (hver : s.ver = t.ver) :
    s.outputs = t.outputs := by
  unfold State.outputs State.done State.ok State.fault
  rw [hseq, herr, hver]

/-- The groups alone decide every output once END has closed them, after a success and after an error. -/
theorem FollowsStream.closePayload_outputs_eq {g : List Group} {s s' : State} (h : FollowsStream g s)
    (h' : FollowsStream g s') : (closePayload s).outputs = (closePayload s').outputs :=
  State.outputs_congr rfl (h.verdict_eq_outcome.trans h'.verdict_eq_outcome.symm) (h.ver.trans h'.ver.symm)

/-- The groups alone decide what the read port shows: the bytes of one hash after a success, 0 after an error. What HASH
held before is shown in neither case (20_memory R33). -/
theorem FollowsStream.closePayload_rdData_eq {g : List Group} {s s' : State} (h : FollowsStream g s)
    (h' : FollowsStream g s') (a : ReadAddr) : rdData (closePayload s) a = rdData (closePayload s') a := by
  by_cases hnone : outcome g = .eNone
  · obtain ⟨v, hash, hbytes, -, -, -, -, -, hread⟩ := h.outputs_of_success hnone
    obtain ⟨v', hash', hbytes', -, -, -, -, -, hread'⟩ := h'.outputs_of_success hnone
    obtain ⟨-, rfl⟩ := List.cons.inj (Except.ok.inj (hbytes.symm.trans hbytes'))
    rw [hread, hread']
  · obtain ⟨-, -, -, -, hread⟩ := outputs_of_error (h.verdict_eq_outcome ▸ hnone)
    obtain ⟨-, -, -, -, hread'⟩ := outputs_of_error (h'.verdict_eq_outcome ▸ hnone)
    rw [hread, hread']

/-- Settles O44: from both states END closes registers that follow the same groups. -/
theorem transactionsAreIndependent : Obligations.TransactionsAreIndependent := by
  intro g s s' hseq hseq'
  obtain ⟨t, ht, hrun⟩ := runCommands_payload g hseq
  obtain ⟨t', ht', hrun'⟩ := runCommands_payload g hseq'
  exact ⟨closePayload t, closePayload t', hrun, hrun', ht.closePayload_outputs_eq ht', ht.closePayload_rdData_eq ht'⟩

/-- Settles O1: a reset edge answers `resetRegisters`, whose registers are those of the reset state and whose HASH is
the old one. -/
theorem resetEdgeRestoresRegisters : Obligations.ResetEdgeRestoresRegisters := by
  intro s e rest hedges hrst
  exact ⟨_, step_of_reset hedges hrst, resetRegisters_seq _, resetRegisters_err _, resetRegisters_acc _,
    resetRegisters_nbits _, resetRegisters_last _, resetRegisters_ne _, resetRegisters_bcnt _, resetRegisters_ver _,
    resetRegisters_hash _⟩

end Sys2Proof.Machine
end

/-! ### The reset state, and the block before it (10_state R26, 70_reset_and_hazards R137) -/

section
namespace Sys2Proof.Machine

/-- In IDLE nothing was pushed and ERR is 0. -/
theorem Sequencer.of_idle {s : State} (hseq : s.seq = .idle) (hne : s.ne = false) (herr : s.err = .eNone) :
    Sequencer s :=
  ⟨fun _ => ⟨hne, herr⟩, fun _ => herr, by simp [hseq], by simp [hseq]⟩

theorem State.Inv.reset : State.reset.Inv where
  hashWf := reset_hash_wf
  datapath _ := .of_zero rfl rfl rfl rfl rfl rfl
  sequencer _ := .of_idle rfl rfl rfl

/-- Settles O37: the registers are all 0, STATE is IDLE and the buffer lists no byte. -/
theorem resetMeetsTheInvariant : Obligations.ResetMeetsTheInvariant := ⟨.reset, rfl⟩

/-- None of the output ports of `Outputs` reads HASH or the pins, which a reset keeps. -/
theorem resetRegisters_outputs (s : State) : (resetRegisters s).outputs = State.reset.outputs :=
  State.outputs_congr (resetRegisters_seq s) (resetRegisters_err s) (resetRegisters_ver s)

/-- Settles O2: the outputs are those of the reset state, whose `ok` is 0, so the read port hides HASH. -/
theorem outputsAfterResetAreZero : Obligations.OutputsAfterResetAreZero := by
  intro s e rest hedges hrst
  have houtputs := resetRegisters_outputs { s with edges := rest }
  obtain ⟨-, -, -, hread⟩ := results_of_ok_eq_zero (congrArg Outputs.ok houtputs)
  exact ⟨_, step_of_reset hedges hrst, houtputs, hread⟩

/-- In a block that has not been reset, an edge that accepts a word has no meaning. -/
theorem step_of_command_before_reset {s : State} {e : ClockEdge} {rest : List ClockEdge} (hedges : s.edges = e :: rest)
    (hreset : s.wasReset = false) (hrst : e.rst = false) (hvalid : e.cmdValid = true) :
    step s = .refused .commandBeforeReset := by
  rw [step_cons hedges, e.action_of_command hrst hvalid]
  exact if_neg (Bool.not_eq_true _ ▸ hreset)

/-- Settles O5: the flag `wasReset` guards every command, and a reset edge sets it. -/
theorem commandBeforeResetIsRefused : Obligations.CommandBeforeResetIsRefused :=
  ⟨fun _ _ _ => step_of_command_before_reset, fun _ _ _ hedges hrst =>
    ⟨_, step_of_reset hedges hrst, resetRegisters_wasReset _, resetRegisters_edges _⟩⟩

end Sys2Proof.Machine
end

/-! ### Sample words (30_encoding R47, R49) -/

section
namespace Sys2Proof

/-- The decoder answers the one command that the word spells. -/
theorem Spells.decode_eq {w : CommandWord} {i : Instr} (h : Spells w i) : decode w = i := by
  obtain ⟨hwf, rfl⟩ := h
  exact decode_encode hwf

/-- Settles O29: each word is the encoding of its command, whose fields lie in the row's range. -/
theorem sampleWordsDecode : Obligations.SampleWordsDecode :=
  ⟨Spells.decode_eq ⟨rfl, rfl⟩, Spells.decode_eq ⟨rfl, rfl⟩, Spells.decode_eq ⟨rfl, rfl⟩, Spells.decode_eq ⟨rfl, rfl⟩,
    Spells.decode_eq ⟨rfl, rfl⟩, Spells.decode_eq ⟨rfl, rfl⟩, Spells.decode_eq ⟨rfl, rfl⟩, Spells.decode_eq ⟨rfl, rfl⟩⟩

end Sys2Proof
end
